-- ==== Sys2Proof/Word.lean ====
section
/-! DEFINITION. The carrier of the machine. A value (a memory cell, `ip`, `rb`, a queue element, an operand) is a
mathematical integer, Lean's `Int`, and an address is a natural number, Lean's `Nat` (00_scope.md R5, decisions D1 and D2).
There is no width and there are no bits (R6), so nothing is a bit vector; an instruction word is a decimal record, and
what it needs is the decimal digit. -/

namespace Sys2Proof

/-- `digit(q, k)` for `k ≥ 1`: the k-th decimal digit of `q`, numbered from the least significant (00_scope.md
section 4.1). -/
def digit (q k : Nat) : Nat := q / 10 ^ (k - 1) % 10

end Sys2Proof
end

