-- ==== Sys2Proof/Config.lean ====
section
/-! DEFINITION. What the spec fixes for every implementation. 92_eei_decisions.md leaves exactly one parameter
open, FUEL (D20): it belongs to the runner and is an argument of `Machine.drive`, not a constant here. The spec leaves
no value free, so there is no opaque constant. -/

namespace Sys2Proof.Config

/-- What a cell that nothing has written reads as (20_memory.md R32). -/
def unwritten : Int := 0

/-- The first fetch after either reset reads this address (10_state.md R26, 20_memory.md R39). -/
def entryPoint : Int := 0

/-- `rb` after either reset (10_state.md R26). -/
def initialBase : Int := 0

end Sys2Proof.Config
end

