-- ==== Sys2Proof/Syntax.lean ====
section
/-! DEFINITION. The instructions as syntax: three addressing modes, an operand, and the ten instructions of
spec/opcode_table.json, one constructor per row. -/

namespace Sys2Proof

/-- The three addressing modes (30_encoding.md R51: digits 0, 1, 2). -/
inductive Mode where
  | position
  | immediate
  | relative
  deriving DecidableEq, Repr

/-- A parameter paired with its mode. The parameter is a whole cell (30_encoding.md R59). -/
structure Operand where
  mode  : Mode
  param : Int
  deriving DecidableEq, Repr

/-- The ten rows of the dispatch table (30_encoding.md R64). `inp` is IN, whose name is a word of Lean. -/
inductive Opcode where
  | add | mul | inp | out | jnz | jz | lt | eq | arb | hlt
  deriving DecidableEq, Repr

/-- An instruction: its opcode and its parameters in order. Surplus mode digits of the word are no part of it, since
they select nothing (30_encoding.md R57). -/
inductive Instr where
  /-- ADD, opcode 1 (R80): sources `a`, `b`, write target `d`. -/
  | add (a b d : Operand)
  /-- MUL, opcode 2 (R81). -/
  | mul (a b d : Operand)
  /-- IN, opcode 3 (R85): write target `d`. -/
  | inp (d : Operand)
  /-- OUT, opcode 4 (R86): source `a`. -/
  | out (a : Operand)
  /-- JNZ, opcode 5 (R90): condition `c`, jump target `t`. -/
  | jnz (c t : Operand)
  /-- JZ, opcode 6 (R91). -/
  | jz (c t : Operand)
  /-- LT, opcode 7 (R95). -/
  | lt (a b d : Operand)
  /-- EQ, opcode 8 (R96). -/
  | eq (a b d : Operand)
  /-- ARB, opcode 9 (R100): source `a`. -/
  | arb (a : Operand)
  /-- HLT, opcode 99 (R103). -/
  | hlt
  deriving DecidableEq, Repr

end Sys2Proof
end

