-- ==== Sys2Proof/WellFormed.lean ====
section
/-! DEFINITION. The one check an instruction must pass: its write target is not in immediate mode
(30_encoding.md R62, R63). Every other combination of modes and parameters is legal (R65). -/

namespace Sys2Proof

/-- A mode that a write target may have (30_encoding.md R61). -/
def Mode.writable : Mode → Bool
  | .position  => true
  | .immediate => false
  | .relative  => true

/-- The write target of ADD, MUL, LT, EQ (parameter 3) and of IN (parameter 1) is writable; the other opcodes have
no write target (30_encoding.md R63). -/
def Instr.wellFormed : Instr → Bool
  | .add _ _ d => d.mode.writable
  | .mul _ _ d => d.mode.writable
  | .inp d     => d.mode.writable
  | .out _     => true
  | .jnz _ _   => true
  | .jz _ _    => true
  | .lt _ _ d  => d.mode.writable
  | .eq _ _ d  => d.mode.writable
  | .arb _     => true
  | .hlt       => true

end Sys2Proof
end

