-- ==== Sys2Proof/Decode.lean ====
section
/-! DEFINITION. The instruction decoder of 30_encoding.md, total on every integer word, rejecting by name, and the
encoder written from the same tables. -/

namespace Sys2Proof

/-! ## The opcode map (30_encoding.md R64) -/

/-- The opcode number of a row. -/
def Opcode.code : Opcode → Nat
  | .add => 1 | .mul => 2 | .inp => 3 | .out => 4 | .jnz => 5
  | .jz => 6 | .lt => 7 | .eq => 8 | .arb => 9 | .hlt => 99

/-- The row a number selects, if any (R58). -/
def Opcode.ofCode (c : Int) : Option Opcode :=
  if c = 1 then some .add
  else if c = 2 then some .mul
  else if c = 3 then some .inp
  else if c = 4 then some .out
  else if c = 5 then some .jnz
  else if c = 6 then some .jz
  else if c = 7 then some .lt
  else if c = 8 then some .eq
  else if c = 9 then some .arb
  else if c = 99 then some .hlt
  else none

/-- How many parameters a row has. -/
def Opcode.arity : Opcode → Nat
  | .add => 3 | .mul => 3 | .inp => 1 | .out => 1 | .jnz => 2
  | .jz => 2 | .lt => 3 | .eq => 3 | .arb => 1 | .hlt => 0

/-- The instruction's length in cells (R50). -/
def Opcode.length (op : Opcode) : Nat := 1 + op.arity

/-- The number of the write-target parameter (R63). -/
def Opcode.writeParam : Opcode → Option Nat
  | .add => some 3 | .mul => some 3 | .inp => some 1 | .lt => some 3 | .eq => some 3
  | .out => none | .jnz => none | .jz => none | .arb => none | .hlt => none

/-! ## Mode digits -/

/-- The digit that stands for a mode in the word (R51). -/
def Mode.digit : Mode → Nat
  | .position => 0 | .immediate => 1 | .relative => 2

/-- The mode a digit stands for; 3 to 9 stand for none (R56). -/
def Mode.ofDigit : Nat → Option Mode
  | 0 => some .position
  | 1 => some .immediate
  | 2 => some .relative
  | _ => none

/-- The decimal digits of `q`, least significant first, at most `fuel` of them. -/
def digitsUpTo : Nat → Nat → List Nat
  | 0, _ => []
  | fuel + 1, q => if q = 0 then [] else q % 10 :: digitsUpTo fuel (q / 10)

/-- The decimal digits of `q`, least significant first, no leading zero; `digits 0 = []` (00_scope.md section 4.1).
A number has at most as many digits as its own value, so the fuel never runs out. -/
def digits (q : Nat) : List Nat := digitsUpTo q q

/-- The modes a list of digits stands for, or none if one of them is no mode (R56). -/
def modesOf : List Nat → Option (List Mode)
  | [] => some []
  | d :: ds =>
    match Mode.ofDigit d, modesOf ds with
    | some m, some ms => some (m :: ms)
    | _, _ => none

/-- The mode of parameter `k` = 1, 2, 3; position where the word has no digit (R55). -/
def modeOf (modes : List Mode) (k : Nat) : Mode := modes.getD (k - 1) .position

/-! ## The decoder -/

/-- Why a word is no instruction (30_encoding.md R69, the sub-causes of DecodeError). -/
inductive DecodeFault where
  /-- Some digit of `w div 100` is 3 to 9 (R56). -/
  | invalidMode
  /-- The opcode is in no row of the table (R68). -/
  | unknownOpcode
  /-- The write target, parameter `k`, has mode 1 (R62). -/
  | immediateWriteTarget (k : Nat)
  deriving DecidableEq, Repr

/-- `Decode(w)` of R52: the opcode and the list of modes. The test `w ≤ 99` comes before any remainder (R53). -/
def decodeWord (w : Int) : Except DecodeFault (Int × List Mode) :=
  if w ≤ 99 then .ok (w, [])
  else
    match modesOf (digits (w.toNat / 100)) with
    | some modes => .ok (((w.toNat % 100 : Nat) : Int), modes)
    | none => .error .invalidMode

/-- A word decoded as far as it goes alone: its row and its modes. -/
structure Head where
  op    : Opcode
  modes : List Mode
  deriving DecidableEq, Repr

/-- Steps 3 to 5 of `ExecOne` (46_execution_driver.md R110): the word decoder, the table, the write target's mode, in
the order of R69. -/
def decodeHead (w : Int) : Except DecodeFault Head :=
  match decodeWord w with
  | .error e => .error e
  | .ok (c, modes) =>
    match Opcode.ofCode c with
    | none => .error .unknownOpcode
    | some op =>
      match op.writeParam with
      | some k => if modeOf modes k = .immediate then .error (.immediateWriteTarget k) else .ok ⟨op, modes⟩
      | none => .ok ⟨op, modes⟩

/-- Parameter `k` paired with its mode (R55, R59). -/
def Head.operand (h : Head) (param : Nat → Int) (k : Nat) : Operand := ⟨modeOf h.modes k, param k⟩

/-- The instruction of a decoded word whose parameter cells are `param 1`, `param 2`, `param 3`. It uses the first
`arity` of them only (R59). -/
def Head.instr (h : Head) (param : Nat → Int) : Instr :=
  match h.op with
  | .add => .add (h.operand param 1) (h.operand param 2) (h.operand param 3)
  | .mul => .mul (h.operand param 1) (h.operand param 2) (h.operand param 3)
  | .inp => .inp (h.operand param 1)
  | .out => .out (h.operand param 1)
  | .jnz => .jnz (h.operand param 1) (h.operand param 2)
  | .jz  => .jz (h.operand param 1) (h.operand param 2)
  | .lt  => .lt (h.operand param 1) (h.operand param 2) (h.operand param 3)
  | .eq  => .eq (h.operand param 1) (h.operand param 2) (h.operand param 3)
  | .arb => .arb (h.operand param 1)
  | .hlt => .hlt

/-- The instruction whose word is `w` and whose parameter cells are `param 1`, `param 2`, `param 3`. -/
def decode (w : Int) (param : Nat → Int) : Except DecodeFault Instr :=
  match decodeHead w with
  | .error e => .error e
  | .ok h => .ok (h.instr param)

/-- The decoder on a list of cells, the word first. A cell past the end of the list reads as an unwritten cell of
memory does (20_memory.md R32), so it is total on every list. -/
def decodeCells (cells : List Int) : Except DecodeFault Instr :=
  decode (cells.getD 0 Config.unwritten) (fun k => cells.getD k Config.unwritten)

/-! ## The encoder -/

/-- The row of an instruction. -/
def Instr.opcode : Instr → Opcode
  | .add _ _ _ => .add
  | .mul _ _ _ => .mul
  | .inp _ => .inp
  | .out _ => .out
  | .jnz _ _ => .jnz
  | .jz _ _ => .jz
  | .lt _ _ _ => .lt
  | .eq _ _ _ => .eq
  | .arb _ => .arb
  | .hlt => .hlt

/-- The operands in parameter order. -/
def Instr.operands : Instr → List Operand
  | .add a b d => [a, b, d]
  | .mul a b d => [a, b, d]
  | .inp d => [d]
  | .out a => [a]
  | .jnz c t => [c, t]
  | .jz c t => [c, t]
  | .lt a b d => [a, b, d]
  | .eq a b d => [a, b, d]
  | .arb a => [a]
  | .hlt => []

/-- The mode digits of a list of operands as one number, the first operand's digit the ones digit (R54). -/
def modeNumber : List Operand → Nat
  | [] => 0
  | o :: os => o.mode.digit + 10 * modeNumber os

/-- The instruction word `opcode + 100·A + 1000·B + 10000·C` (30_encoding.md R51, R77), with no surplus digit. DESIGN CHOICE:
R77 contradicts itself, since its example gives `ADD #1, rb+3, 20` the word 1201 where this formula gives 2101, and no
ruling of 90_conflicts.md names it; the model takes the formula (assumption log 12). -/
def encodeWord (i : Instr) : Nat := i.opcode.code + 100 * modeNumber i.operands

/-- The cells of an instruction: the word, then its parameters (R50). -/
def encode (i : Instr) : List Int := (encodeWord i : Int) :: i.operands.map Operand.param

/-! ## The host's view of the decoder -/

/-- The instruction read from a word numbered as spec/opcode_table.json numbers it, with parameter cells of zeros. The
spec has no bits (00_scope.md R6): the number `w` is the instruction word itself, one cell, and `nbits` says nothing more
(assumption log 2). -/
def decodeTableWord (_nbits w : Nat) : Option Instr :=
  match decodeCells [(w : Int)] with
  | .ok i => some i
  | .error _ => none

end Sys2Proof
end

