-- ==== Sys2Proof/Machine/State.lean ====
section
/-! DEFINITION. The architectural state of one core (10_state.md R10: exactly eight elements), the fault record
(60_exceptions.md R152), the reasons a step can stop, and the state after power-on reset (R26, R180). -/

namespace Sys2Proof.Machine

/-! ## Memory -/

/-- Memory: a total function from addresses to values (10_state.md R11), held as the list of its non-zero cells. An
unlisted address reads as `Config.unwritten`. The cells are whole integers, not bytes (20_memory.md R34). -/
abbrev Memory := List (Nat × Int)

/-- The canonical form: addresses strictly rising and no entry equal to what an unlisted address reads as, so that
equal memories are equal data (10_state.md R23: whether a cell was ever written is not observable). -/
abbrev Memory.wf (m : Memory) : Prop :=
  m.Pairwise (fun p q => p.1 < q.1) ∧ ∀ c ∈ m, c.2 ≠ Config.unwritten

/-! ## Fault records -/

/-- The causes of 60_exceptions.md R150. -/
inductive Cause where
  | decodeError
  | missingInputError
  | addressError
  deriving DecidableEq, Repr

/-- The sub-causes of 60_exceptions.md R151. -/
inductive Subcause where
  | unknownOpcode
  | invalidMode
  | immediateWriteTarget
  | fetch
  | read
  | write
  deriving DecidableEq, Repr

/-- The fields of a fault record (60_exceptions.md R152); `none` is the table's "absent". -/
structure FaultRecord where
  cause    : Cause
  subcause : Option Subcause
  /-- `ip` when the fault was raised. -/
  ip       : Int
  /-- The instruction word; absent for AddressError(fetch). -/
  word     : Option Int
  /-- The negative address of an AddressError. -/
  address  : Option Int
  /-- The parameter concerned, for AddressError(read, write) and ImmediateWriteTarget. -/
  param    : Option Nat
  deriving DecidableEq, Repr

/-! ## State -/

/-- The state of one core (10_state.md R10). -/
structure State where
  /-- R11. -/
  mem          : Memory
  /-- Instruction pointer, R12. -/
  ip           : Int
  /-- Relative base, R13. -/
  rb           : Int
  /-- Input queue, front first, R14. -/
  inq          : List Int
  /-- Output queue, oldest first, R15. -/
  outq         : List Int
  /-- R16. -/
  terminated   : Bool
  /-- R17. -/
  defaultInput : Option Int
  /-- The fault latch, R18. -/
  fault        : Option FaultRecord
  deriving DecidableEq, Repr

/-- Power-on reset (70_reset_and_hazards.md R180, 10_state.md R26); every value is the spec's. -/
def State.reset : State where
  mem          := []
  ip           := Config.entryPoint
  rb           := Config.initialBase
  inq          := []
  outq         := []
  terminated   := false
  defaultInput := none
  fault        := none

/-! ## How a step can stop -/

/-- The step stops because the host call in progress ends with `Fault(record)` AND the state is unchanged. A
DecodeError or an AddressError is not such a stop at the instruction that raises it: it changes the state (it sets
the latch), so that step has a next state, and the stop comes at the step after it (assumption log 3). -/
inductive Fault where
  /-- Raised by `step` on a core whose `fault` latch holds `r`: no instruction executes
  (46_execution_driver.md R113). Safe: the machine stops where the spec says nothing executes. -/
  | latched (r : FaultRecord)
  /-- Raised by IN with an empty `inq` and no default: nothing changes, nothing is latched, and the same IN runs
  again once the host has supplied input (60_exceptions.md R155, R156; 41_input_output.md R88). Safe: the spec
  raises it too. -/
  | missingInput (r : FaultRecord)
  deriving DecidableEq, Repr

/-- Raised by nothing in this model: every instruction has its meaning and every other word raises a DecodeError the
spec describes. -/
inductive Refusal where
  /-- Would be raised by `exec` for an instruction without a meaning; no arm does. Safe. -/
  | notModelled (mnemonic : String)
  deriving DecidableEq, Repr

end Sys2Proof.Machine
end

