-- ==== Sys2Proof/Machine/Ops.lean ====
section
/-! DEFINITION. The named operations over memory, the registers, the queues and the fault latch, and raising a
fault as one shared operation. -/

namespace Sys2Proof.Machine

/-! ## Memory (20_memory.md R32, R33) -/

/-- The value at an address; an unlisted address reads as `Config.unwritten` (R32). -/
def Memory.read : Memory → Nat → Int
  | [], _ => Config.unwritten
  | (b, v) :: m, a => if b = a then v else Memory.read m a

/-- The memory without any entry at `a`. -/
def Memory.erase (m : Memory) (a : Nat) : Memory := m.filter (fun c => c.1 ≠ a)

/-- The memory with the entry `(a, v)` put before the first entry at a higher address. -/
def Memory.insert : Memory → Nat → Int → Memory
  | [], a, v => [(a, v)]
  | (b, w) :: m, a, v => if a < b then (a, v) :: (b, w) :: m else (b, w) :: Memory.insert m a v

/-- `MemWrite(a, 1, v)` for `a ≥ 0` (R33). Writing what an unlisted address reads as removes the entry. -/
def Memory.write (m : Memory) (a : Nat) (v : Int) : Memory :=
  if v = Config.unwritten then m.erase a else (m.erase a).insert a v

/-- The non-zero cells of a program whose first cell stands at address `a`. -/
def Memory.imageFrom : Nat → List Int → Memory
  | _, [] => []
  | a, v :: vs => if v = Config.unwritten then imageFrom (a + 1) vs else (a, v) :: imageFrom (a + 1) vs

/-- The memory LOAD makes of a program: cell `i` of the list at address `i`, 0 elsewhere (47_host_commands.md R130). -/
def Memory.image (program : List Int) : Memory := Memory.imageFrom 0 program

/-! ## Registers and queues -/

/-- Write one cell (R33). -/
def State.memWrite (s : State) (a : Nat) (v : Int) : State := { s with mem := s.mem.write a v }

/-- `ip <- ip + n`. -/
def State.advance (s : State) (n : Nat) : State := { s with ip := s.ip + n }

/-- `ip <- t`, any integer (42_jumps.md R92). -/
def State.jumpTo (s : State) (t : Int) : State := { s with ip := t }

/-- `rb <- rb + v` (44_relative_base.md R100). -/
def State.adjustBase (s : State) (v : Int) : State := { s with rb := s.rb + v }

/-- `push_back(inq, v)`. -/
def State.pushInput (s : State) (v : Int) : State := { s with inq := s.inq ++ [v] }

/-- `push_back(outq, v)` (41_input_output.md R86). -/
def State.pushOutput (s : State) (v : Int) : State := { s with outq := s.outq ++ [v] }

/-- `pop_back(outq)`: `outq` without its last element (46_execution_driver.md R118). -/
def State.popOutput (s : State) : State := { s with outq := s.outq.dropLast }

/-! ## Fetching a cell (46_execution_driver.md R110 steps 1, 2 and 6) -/

/-- The instruction word at `ip`, or none where `ip` is negative and nothing can be fetched (20_memory.md R35). -/
def State.wordAt (s : State) : Option Int :=
  if s.ip < 0 then none else some (s.mem.read s.ip.toNat)

/-- Parameter cell `k` of the instruction at `ip` (30_encoding.md R59). -/
def State.param (s : State) (k : Nat) : Int := s.mem.read (s.ip + k).toNat

/-! ## Raising a fault (60_exceptions.md) -/

/-- The numeric codes of R151; the names are the normative identity. -/
def Cause.code : Cause → Nat
  | .decodeError => 1 | .missingInputError => 2 | .addressError => 3

/-- The sub-cause codes of R151. -/
def Subcause.code : Subcause → Nat
  | .unknownOpcode => 1 | .invalidMode => 2 | .immediateWriteTarget => 3
  | .fetch => 1 | .read => 2 | .write => 3

/-- The column "latched" of R151. -/
def Cause.isLatched : Cause → Bool
  | .decodeError => true | .addressError => true | .missingInputError => false

/-- A record of the instruction at `ip` (R152): its address and its word come from the state. -/
def State.record (s : State) (c : Cause) (sub : Option Subcause) (address : Option Int) (param : Option Nat) :
    FaultRecord :=
  { cause := c, subcause := sub, ip := s.ip, word := s.wordAt, address := address, param := param }

/-- AddressError(fetch) (R152: the address is the negative `ip`). -/
def State.fetchError (s : State) : FaultRecord := s.record .addressError (some .fetch) (some s.ip) none

/-- AddressError(read) of parameter `k` at the negative address `a`. -/
def State.readError (s : State) (k : Nat) (a : Int) : FaultRecord :=
  s.record .addressError (some .read) (some a) (some k)

/-- AddressError(write) of parameter `k` at the negative address `a`. -/
def State.writeError (s : State) (k : Nat) (a : Int) : FaultRecord :=
  s.record .addressError (some .write) (some a) (some k)

/-- DecodeError(ImmediateWriteTarget) of parameter `k`. -/
def State.targetError (s : State) (k : Nat) : FaultRecord :=
  s.record .decodeError (some .immediateWriteTarget) none (some k)

/-- MissingInputError. -/
def State.inputError (s : State) : FaultRecord := s.record .missingInputError none none none

/-- The record of a word the decoder rejects. -/
def State.decodeError (s : State) : DecodeFault → FaultRecord
  | .invalidMode => s.record .decodeError (some .invalidMode) none none
  | .unknownOpcode => s.record .decodeError (some .unknownOpcode) none none
  | .immediateWriteTarget k => s.targetError k

/-- `fault <- some record` (46_execution_driver.md R111). -/
def State.latch (s : State) (r : FaultRecord) : State := { s with fault := some r }

/-- `raise F(record)` (60_exceptions.md R160): the instruction is abandoned and nothing changes but the latch, and the
latch only for DecodeError and AddressError. There is no vector, no saved register and no mode (R161), and no return
from a fault (R162), so this is all of taking an exception. -/
def raise (r : FaultRecord) (s : State) : Host.Outcome State Fault Refusal :=
  if r.cause.isLatched then .next (s.latch r) else .fault (.missingInput r)

/-- The outcome of an instruction whose checks and reads gave `e`: its next state, or the fault they raised. -/
def settle (s : State) (e : Except FaultRecord State) : Host.Outcome State Fault Refusal :=
  match e with
  | .ok t => .next t
  | .error r => raise r s

/-! ## Input (41_input_output.md R87) -/

/-- `PopOrDefault()`: the front of the queue, else the default, else MissingInputError. The answer is the value and the
state with `inq` as it then is. -/
def popOrDefault (s : State) : Except FaultRecord (Int × State) :=
  match s.inq with
  | v :: rest => .ok (v, { s with inq := rest })
  | [] =>
    match s.defaultInput with
    | some v => .ok (v, s)
    | none => .error s.inputError

end Sys2Proof.Machine
end

