-- ==== Sys2Proof/Machine/Operands.lean ====
section
/-! DEFINITION. The operand resolver (30_encoding.md R60, R61) and the three shapes in which instructions resolve
their parameters, every check before any effect (R63, 46_execution_driver.md R110 steps 5 and 7). -/

namespace Sys2Proof.Machine

/-- `MemRead(a, 1)` for parameter `k`: AddressError(read) where `a` is negative (20_memory.md R35). -/
def memRead (k : Nat) (a : Int) (s : State) : Except FaultRecord Int :=
  if a < 0 then .error (s.readError k a) else .ok (s.mem.read a.toNat)

/-- Resolve-for-read of parameter `k`, `val(k)` (30_encoding.md R60). -/
def val (k : Nat) (o : Operand) (s : State) : Except FaultRecord Int :=
  match o.mode with
  | .position => memRead k o.param s
  | .immediate => .ok o.param
  | .relative => memRead k (s.rb + o.param) s

/-- The address a write may go to: AddressError(write) where it is negative (R61). -/
def writeAddress (k : Nat) (a : Int) (s : State) : Except FaultRecord Nat :=
  if a < 0 then .error (s.writeError k a) else .ok a.toNat

/-- Resolve-for-write of parameter `k`, `addr(k)` (30_encoding.md R61). -/
def addr (k : Nat) (o : Operand) (s : State) : Except FaultRecord Nat :=
  match o.mode with
  | .position => writeAddress k o.param s
  | .immediate => .error (s.targetError k)
  | .relative => writeAddress k (s.rb + o.param) s

/-- The write target's mode is tested before any operand is resolved (46_execution_driver.md R110 step 5,
90_conflicts.md C12). The decoder has made the same test, so this fails only for an instruction that no word encodes. -/
def checkTarget (k : Nat) (o : Operand) (s : State) : Except FaultRecord Unit :=
  if o.mode = .immediate then .error (s.targetError k) else .ok ()

/-- Two sources and a write target: ADD, MUL, LT, EQ. -/
def resolveStore (a b d : Operand) (s : State) : Except FaultRecord (Int × Int × Nat) := do
  checkTarget 3 d s
  let x ← val 1 a s
  let y ← val 2 b s
  let n ← addr 3 d s
  pure (x, y, n)

/-- Two sources: JNZ, JZ. Both are resolved whether or not the jump is taken (30_encoding.md R63). -/
def resolvePair (a b : Operand) (s : State) : Except FaultRecord (Int × Int) := do
  let x ← val 1 a s
  let y ← val 2 b s
  pure (x, y)

/-- One write target: IN. -/
def resolveTarget (d : Operand) (s : State) : Except FaultRecord Nat := do
  checkTarget 1 d s
  addr 1 d s

/-- An instruction that stores a function of its two sources and advances by its length 4. -/
def storeResult (f : Int → Int → Int) (a b d : Operand) (s : State) : Host.Outcome State Fault Refusal :=
  settle s do
    let (x, y, n) ← resolveStore a b d s
    pure ((s.memWrite n (f x y)).advance 4)

/-- A conditional jump of length 3: to the second operand's value where the first satisfies `taken`. -/
def jumpWhen (taken : Int → Bool) (c t : Operand) (s : State) : Host.Outcome State Fault Refusal :=
  settle s do
    let (x, y) ← resolvePair c t s
    pure (if taken x then s.jumpTo y else s.advance 3)

end Sys2Proof.Machine
end

