-- ==== Sys2Proof/Machine/Arithmetic.lean ====
section
/-! DEFINITION. ADD and MUL (40_arithmetic.md). All arithmetic is exact in the integers (R82). -/

namespace Sys2Proof.Machine

/-- ADD (R80): `mem[addr(3)] = val(1) + val(2); ip += 4`. -/
def execAdd (a b d : Operand) (s : State) : Host.Outcome State Fault Refusal :=
  storeResult (fun x y => x + y) a b d s

/-- MUL (R81): `mem[addr(3)] = val(1) * val(2); ip += 4`. -/
def execMul (a b d : Operand) (s : State) : Host.Outcome State Fault Refusal :=
  storeResult (fun x y => x * y) a b d s

end Sys2Proof.Machine
end

