-- ==== Sys2Proof/Machine/Flags.lean ====
section
/-! DEFINITION. The machine has no condition codes (10_state.md R20): a comparison writes 1 or 0 to a cell, and the
only flag is `terminated`. Here are those two, and the status of a core, which is a function of its state (R25). -/

namespace Sys2Proof.Machine

/-- The integer a comparison writes: exactly 1 or exactly 0 (43_compare.md R95, R96). -/
def truth (p : Bool) : Int := if p then 1 else 0

/-- `terminated <- true` (45_halt.md R103); no instruction clears it (10_state.md R16). -/
def State.terminate (s : State) : State := { s with terminated := true }

/-- The three statuses of 10_state.md R25. -/
inductive Status where
  | running
  | terminated
  | faulted
  deriving DecidableEq, Repr

/-- 10_state.md R25. -/
def State.status (s : State) : Status :=
  match s.fault with
  | some _ => .faulted
  | none => if s.terminated then .terminated else .running

end Sys2Proof.Machine
end

