-- ==== Sys2Proof/Machine/Compare.lean ====
section
/-! DEFINITION. LT and EQ (43_compare.md): the order and the equality of the integers. -/

namespace Sys2Proof.Machine

/-- LT (R95): store 1 if `val(1) < val(2)`, else 0; `ip += 4`. -/
def execLt (a b d : Operand) (s : State) : Host.Outcome State Fault Refusal :=
  storeResult (fun x y => truth (decide (x < y))) a b d s

/-- EQ (R96): store 1 if `val(1) = val(2)`, else 0; `ip += 4`. -/
def execEq (a b d : Operand) (s : State) : Host.Outcome State Fault Refusal :=
  storeResult (fun x y => truth (decide (x = y))) a b d s

end Sys2Proof.Machine
end

