-- ==== Sys2Proof/Machine/Halt.lean ====
section
/-! DEFINITION. HLT (45_halt.md), the only instruction that sets `terminated`. -/

namespace Sys2Proof.Machine

/-- HLT (R103): `terminated = true; ip += 1`. -/
def execHlt (s : State) : Host.Outcome State Fault Refusal :=
  .next (s.terminate.advance 1)

end Sys2Proof.Machine
end

