-- ==== Sys2Proof/Machine/InputOutput.lean ====
section
/-! DEFINITION. IN and OUT (41_input_output.md). -/

namespace Sys2Proof.Machine

/-- IN (R85): the destination is resolved first and the input taken second, so a word that cannot store its input
consumes none. -/
def execInp (d : Operand) (s : State) : Host.Outcome State Fault Refusal :=
  settle s do
    let n ← resolveTarget d s
    let (v, t) ← popOrDefault s
    pure ((t.memWrite n v).advance 2)

/-- OUT (R86): append `val(1)` to the output queue; `ip += 2`. -/
def execOut (a : Operand) (s : State) : Host.Outcome State Fault Refusal :=
  settle s do
    let v ← val 1 a s
    pure ((s.pushOutput v).advance 2)

end Sys2Proof.Machine
end

