-- ==== Sys2Proof/Machine/Jumps.lean ====
section
/-! DEFINITION. JNZ and JZ (42_jumps.md), the machine's only control transfers (R93). -/

namespace Sys2Proof.Machine

/-- JNZ (R90): `ip <- val(2)` where `val(1) ≠ 0`, else `ip += 3`. -/
def execJnz (c t : Operand) (s : State) : Host.Outcome State Fault Refusal :=
  jumpWhen (fun x => decide (x ≠ 0)) c t s

/-- JZ (R91): `ip <- val(2)` where `val(1) = 0`, else `ip += 3`. -/
def execJz (c t : Operand) (s : State) : Host.Outcome State Fault Refusal :=
  jumpWhen (fun x => decide (x = 0)) c t s

end Sys2Proof.Machine
end

