-- ==== Sys2Proof/Machine/RelativeBase.lean ====
section
/-! DEFINITION. ARB (44_relative_base.md), the one instruction that writes `rb`. -/

namespace Sys2Proof.Machine

/-- ARB (R100): `rb <- rb + val(1)`, the operand read through the old `rb`; `ip += 2`. -/
def execArb (a : Operand) (s : State) : Host.Outcome State Fault Refusal :=
  settle s do
    let v ← val 1 a s
    pure ((s.adjustBase v).advance 2)

end Sys2Proof.Machine
end

