-- ==== Sys2Proof/Machine/Dispatch.lean ====
section
/-! DEFINITION. The dispatch table (30_encoding.md R64): one arm per instruction. -/

namespace Sys2Proof.Machine

/-- Steps 5 to 9 of `ExecOne` for a decoded instruction at `ip` (46_execution_driver.md R110). Whether an instruction
may execute at all (R112, R113) is `step`'s question. -/
def exec (i : Instr) (s : State) : Host.Outcome State Fault Refusal :=
  match i with
  | .add a b d => Sys2Proof.Machine.execAdd a b d s
  | .mul a b d => Sys2Proof.Machine.execMul a b d s
  | .inp d => Sys2Proof.Machine.execInp d s
  | .out a => Sys2Proof.Machine.execOut a s
  | .jnz c t => Sys2Proof.Machine.execJnz c t s
  | .jz c t => Sys2Proof.Machine.execJz c t s
  | .lt a b d => Sys2Proof.Machine.execLt a b d s
  | .eq a b d => Sys2Proof.Machine.execEq a b d s
  | .arb a => Sys2Proof.Machine.execArb a s
  | .hlt => Sys2Proof.Machine.execHlt s

end Sys2Proof.Machine
end

