-- ==== Sys2Proof/Machine/Fetch.lean ====
section
/-! DEFINITION. Fetching and decoding the instruction at `ip` (46_execution_driver.md R110 steps 1 to 6), and placing
one there. -/

namespace Sys2Proof.Machine

/-- Steps 1 to 6 of `ExecOne`: the instruction at `ip`, or the record of the fault that fetching or decoding it raises,
in the order of 60_exceptions.md R159. The parameter cells cannot fault, since `ip` is not negative there. -/
def fetchInstr (s : State) : Except FaultRecord Instr :=
  match s.wordAt with
  | none => .error s.fetchError
  | some w =>
    match decode w s.param with
    | .error e => .error (s.decodeError e)
    | .ok i => .ok i

/-- The state with the cells `cells` at address `a` and up. -/
def State.placeCells (s : State) (a : Nat) : List Int → State
  | [] => s
  | v :: vs => (s.memWrite a v).placeCells (a + 1) vs

/-- The state whose next step fetches the word `w` with parameter cells of zeros, four cells in all, the longest
instruction: they stand at `ip`, or at the entry point where `ip` is negative and cannot be fetched from; and the core
is neither terminated nor faulted, since such a core fetches nothing (46_execution_driver.md R112, R113). -/
def State.placeInstr (s : State) (w : Int) : State :=
  let ip := if s.ip < 0 then Config.entryPoint else s.ip
  { s with ip := ip, terminated := false, fault := none }.placeCells ip.toNat [w, 0, 0, 0]

end Sys2Proof.Machine
end

