-- ==== Sys2Proof/Machine/Step.lean ====
section
/-! DEFINITION. One pass of the loop `Drive` (46_execution_driver.md R111 steps a to c), without the host call around
it: that is Driver.lean. -/

namespace Sys2Proof.Machine

/-- One step of the core. On a faulted core no instruction executes and the latched record is reported (R113); on a
terminated core no instruction executes and nothing changes (R112); else `ExecOne` (R110): fetch, decode, execute, a
fault being raised as 60_exceptions.md R160 says. -/
def step (s : State) : Host.Outcome State Fault Refusal :=
  match s.fault with
  | some r => .fault (.latched r)
  | none =>
    if s.terminated then .next s
    else
      match fetchInstr s with
      | .error r => raise r s
      | .ok i => exec i s

/-- The state whose next step runs the word `w` of spec/opcode_table.json (see `decodeTableWord` on `nbits`). -/
def State.withFetchWord (s : State) (_nbits w : Nat) : State := s.placeInstr (w : Int)

end Sys2Proof.Machine
end

