-- ==== Sys2Proof/Machine/Driver.lean ====
section
/-! DEFINITION. The execution driver (46_execution_driver.md): the loop `Drive` shared by RUN and STEP, as one pass
(`driveOnce`) and as a runner with fuel (`drive`). The core has no bound on a call (R122); the fuel is the runner's
parameter FUEL (92_eei_decisions.md D20) and running out of it is the runner's own outcome (60_exceptions.md R158). -/

namespace Sys2Proof.Machine

/-- What an executed instruction reports to the driver (R110). -/
inductive Event where
  | goOn
  | output (v : Int)
  | halt
  deriving DecidableEq, Repr

/-- The event of instruction `i` whose effect gave the state `t`: OUT reports the value it has just appended. -/
def eventOf (i : Instr) (t : State) : Event :=
  match i with
  | .add _ _ _ => .goOn
  | .mul _ _ _ => .goOn
  | .inp _ => .goOn
  | .out _ => .output (t.outq.getLastD 0)
  | .jnz _ _ => .goOn
  | .jz _ _ => .goOn
  | .lt _ _ _ => .goOn
  | .eq _ _ _ => .goOn
  | .arb _ => .goOn
  | .hlt => .halt

/-- The event of the step from `s` to `t`. -/
def eventAt (s t : State) : Event :=
  match fetchInstr s with
  | .ok i => eventOf i t
  | .error _ => .goOn

/-- The result of a host call that executes instructions (00_scope.md section 4.4). -/
inductive Result where
  | produced (v : Int)
  | halted
  | fault (r : FaultRecord)
  deriving DecidableEq, Repr

/-- What a call returns at once, executing nothing: the latched fault (R113), or Halted (R112). -/
def atRest (s : State) : Option Result :=
  match s.fault with
  | some r => some (.fault r)
  | none => if s.terminated then some .halted else none

/-- What one pass of the loop leads to. -/
inductive Progress where
  | returned (r : Result) (s : State)
  | continues (s : State)
  /-- The model has no meaning for the instruction; no instruction of this model leads here. -/
  | refused (q : Refusal)
  deriving DecidableEq, Repr

/-- One pass of `Drive(streaming)` (R111): steps a and b; then one instruction (c); then the return of `Produced` after
an output under STEP, which removes the value it returns (d, R118); else the loop goes on (e). -/
def driveOnce (streaming : Bool) (s : State) : Progress :=
  match atRest s with
  | some r => .returned r s
  | none =>
    match step s with
    | .refused q => .refused q
    | .fault (.latched r) => .returned (.fault r) s
    | .fault (.missingInput r) => .returned (.fault r) s
    | .next t =>
      match t.fault with
      | some r => .returned (.fault r) t
      | none =>
        match eventAt s t with
        | .output v => if streaming then .returned (.produced v) t.popOutput else .continues t
        | .goOn => .continues t
        | .halt => .continues t

/-- How a call ends under the runner. -/
inductive Call where
  | returned (r : Result) (s : State)
  /-- The fuel is used up and the call has not returned; `s` is the state it has reached. -/
  | outOfFuel (s : State)
  | refused (q : Refusal)
  deriving DecidableEq, Repr

/-- `Drive(streaming)` (R111) for at most `fuel` instructions. -/
def drive (streaming : Bool) : Nat → State → Call
  | 0, s =>
    match atRest s with
    | some r => .returned r s
    | none => .outOfFuel s
  | fuel + 1, s =>
    match driveOnce streaming s with
    | .returned r t => .returned r t
    | .continues t => drive streaming fuel t
    | .refused q => .refused q

end Sys2Proof.Machine
end

