-- ==== Sys2Proof/Machine/Commands.lean ====
section
/-! DEFINITION. The host interface (47_host_commands.md): the eleven commands, each atomic, and the machine of
46_execution_driver.md R121 in which a core is idle or executing a call. -/

namespace Sys2Proof.Machine

/-- The commands of 47_host_commands.md R137. MEM_PEEK takes a natural number (R140). -/
inductive HostAction where
  | load (program inputs : List Int)
  | addInput (v : Int)
  | setDefault (v : Int)
  | clearDefault
  | run
  | step
  | peekOutputs
  | takeOutputs
  | memPeek (a : Nat)
  | status
  | powerOn
  deriving DecidableEq, Repr

/-- What STATUS returns (R141). -/
structure StatusReport where
  status       : Status
  ip           : Int
  rb           : Int
  inqLength    : Nat
  outqLength   : Nat
  defaultInput : Option Int
  fault        : Option FaultRecord
  deriving DecidableEq, Repr

/-- The result column of R137. -/
inductive HostResult where
  | nothing
  | call (r : Result)
  | outputs (vs : List Int)
  | cell (v : Int)
  | status (r : StatusReport)
  deriving DecidableEq, Repr

/-- LOAD (R130). `default_input` is unchanged (decision D15). -/
def State.load (s : State) (program inputs : List Int) : State where
  mem          := Memory.image program
  ip           := Config.entryPoint
  rb           := Config.initialBase
  inq          := inputs
  outq         := []
  terminated   := false
  defaultInput := s.defaultInput
  fault        := none

/-- SET_DEFAULT (R134). -/
def State.setDefault (s : State) (v : Int) : State := { s with defaultInput := some v }

/-- CLEAR_DEFAULT (R135). -/
def State.clearDefault (s : State) : State := { s with defaultInput := none }

/-- TAKE_OUTPUTS empties the queue (R139). -/
def State.clearOutputs (s : State) : State := { s with outq := [] }

/-- STATUS (R141). -/
def State.report (s : State) : StatusReport where
  status       := s.status
  ip           := s.ip
  rb           := s.rb
  inqLength    := s.inq.length
  outqLength   := s.outq.length
  defaultInput := s.defaultInput
  fault        := s.fault

/-- What a command leads to under the runner. -/
inductive Performed where
  | done (r : HostResult) (s : State)
  | outOfFuel (s : State)
  | refused (q : Refusal)
  deriving DecidableEq, Repr

/-- A call's end as a command's. -/
def Call.performed : Call → Performed
  | .returned r s => .done (.call r) s
  | .outOfFuel s => .outOfFuel s
  | .refused q => .refused q

/-- One command on an idle core (R137): its whole effect and its result. `fuel` bounds RUN and STEP only. -/
def perform (fuel : Nat) (a : HostAction) (s : State) : Performed :=
  match a with
  | .load program inputs => .done .nothing (s.load program inputs)
  | .addInput v => .done .nothing (s.pushInput v)
  | .setDefault v => .done .nothing (s.setDefault v)
  | .clearDefault => .done .nothing s.clearDefault
  | .run => (drive false fuel s).performed
  | .step => (drive true fuel s).performed
  | .peekOutputs => .done (.outputs s.outq) s
  | .takeOutputs => .done (.outputs s.outq) s.clearOutputs
  | .memPeek a => .done (.cell (s.mem.read a)) s
  | .status => .done (.status s.report) s
  | .powerOn => .done .nothing State.reset

/-! ## Idle and executing (46_execution_driver.md R121) -/

/-- The two activities. Which call is in progress belongs to the call and is no state of the core (10_state.md R22). -/
inductive Activity where
  | idle
  | executing (streaming : Bool)
  deriving DecidableEq, Repr

/-- A core together with the call in progress on it, if any. -/
structure Session where
  core     : State
  activity : Activity
  deriving DecidableEq, Repr

/-- After power-on the core is idle (70_reset_and_hazards.md R180). -/
def Session.reset : Session := ⟨State.reset, .idle⟩

/-- RUN or STEP is issued to an idle core: a core at rest answers at once and stays idle, executing nothing; a running one
begins the call, which has no result yet. -/
def Session.begin (streaming : Bool) (s : State) : Session × Option HostResult :=
  match atRest s with
  | some r => (⟨s, .idle⟩, some (.call r))
  | none => (⟨s, .executing streaming⟩, none)

/-- The host issues a command. An executing core accepts none (47_host_commands.md R145): the answer is none. On an idle
core RUN and STEP are `Session.begin`; every other command has its whole effect and its result. -/
def Session.issue (a : HostAction) (u : Session) : Option (Session × Option HostResult) :=
  match u.activity with
  | .executing _ => none
  | .idle =>
    match a with
    | .run => some (Session.begin false u.core)
    | .step => some (Session.begin true u.core)
    | .load program inputs => some (⟨u.core.load program inputs, .idle⟩, some .nothing)
    | .addInput v => some (⟨u.core.pushInput v, .idle⟩, some .nothing)
    | .setDefault v => some (⟨u.core.setDefault v, .idle⟩, some .nothing)
    | .clearDefault => some (⟨u.core.clearDefault, .idle⟩, some .nothing)
    | .peekOutputs => some (u, some (.outputs u.core.outq))
    | .takeOutputs => some (⟨u.core.clearOutputs, .idle⟩, some (.outputs u.core.outq))
    | .memPeek a => some (u, some (.cell (u.core.mem.read a)))
    | .status => some (u, some (.status u.core.report))
    | .powerOn => some (Session.reset, some .nothing)

/-- One instruction of the call in progress, and the call's result where the core becomes idle. A HLT ends the call in
the same transition (the `Halt` row of R121): R111 sends it once more through the loop, whose step b returns `Halted`
and changes nothing. An idle core does nothing by itself. The answer is none where the model refuses the instruction,
which none of its instructions does. -/
def Session.tick (u : Session) : Option (Session × Option Result) :=
  match u.activity with
  | .idle => some (u, none)
  | .executing streaming =>
    match driveOnce streaming u.core with
    | .returned r s => some (⟨s, .idle⟩, some r)
    | .continues s =>
      match atRest s with
      | some r => some (⟨s, .idle⟩, some r)
      | none => some (⟨s, .executing streaming⟩, none)
    | .refused _ => none

/-- Up to `n` ticks, stopping at the first that returns a result. -/
def Session.ticks : Nat → Session → Option (Session × Option Result)
  | 0, u => some (u, none)
  | n + 1, u =>
    match u.tick with
    | none => none
    | some (v, some r) => some (v, some r)
    | some (v, none) => v.ticks n

end Sys2Proof.Machine
end

