-- ==== Sys2Proof/Machine/System.lean ====
section
/-! DEFINITION. Several cores (10_state.md R24, 60_exceptions.md R171). They share nothing; the host acts on one at a
time, and a value passes between two of them only through the host (47_host_commands.md R143). The host's loop and its
topology are out of scope (00_scope.md R4). -/

namespace Sys2Proof.Machine

/-- The cores of a system, by position; a position is the host's and visible to no program (R171). -/
abbrev System := List State

/-- The host performs a command on core `k`: the result and the system after it, or none where there is no such core,
the fuel is used up or the model refuses. -/
def System.act (fuel : Nat) (k : Nat) (a : HostAction) (sys : System) : Option (HostResult × System) :=
  match sys[k]? with
  | none => none
  | some s =>
    match perform fuel a s with
    | .done r t => some (r, sys.set k t)
    | .outOfFuel _ => none
    | .refused _ => none

/-- The one way a value passes from core `i` to core `j` (R143): the host takes `v` from core `i`'s `Produced(v)` and
issues ADD_INPUT(v) to core `j`. Where STEP returns another result nothing is passed on. -/
def System.relay (fuel : Nat) (i j : Nat) (sys : System) : Option (HostResult × System) :=
  match System.act fuel i .step sys with
  | none => none
  | some (r, sys') =>
    match r with
    | .call (.produced v) =>
      match System.act fuel j (.addInput v) sys' with
      | some (_, sys'') => some (r, sys'')
      | none => none
    | _ => some (r, sys')

end Sys2Proof.Machine
end

