-- ==== Sys2Proof/Safety.lean ====
section
/-! DEFINITION. The terms in which claims speak of the machine: what an operand reads and where a target points, said
without the model's resolver; the shape of a fault record; the invariant of a state; what a call returns with no bound
on its length; and a safe run. -/

namespace Sys2Proof

/-! ## Words, from 30_encoding.md R51 and R56 -/

/-- Every mode digit of the word is 0, 1 or 2 (a word up to 99 has none). -/
def ModesValid (w : Int) : Prop := w ≤ 99 ∨ ∀ k ≥ 1, digit (w.toNat / 100) k ≤ 2

/-- The opcode of the word: the word itself up to 99 (R53), else its low two digits (R52). -/
def opcodeOf (w : Int) : Int := if w ≤ 99 then w else w % 100

/-- The mode digit of parameter `k`, 0 where the word has none (R55). -/
def modeDigit (w : Int) (k : Nat) : Nat := if w ≤ 99 then 0 else digit (w.toNat / 100) k

/-! ## Operands made absolute -/

/-- The position-mode operand that names the cell a relative-mode operand names when the relative base is `b`; operands
of the other modes are as they are (20_memory.md R46). -/
def Operand.absolute (b : Int) (o : Operand) : Operand :=
  match o.mode with
  | .position => o
  | .immediate => o
  | .relative => ⟨.position, b + o.param⟩

/-- The instruction with every operand made absolute. -/
def Instr.absolute (b : Int) : Instr → Instr
  | .add x y d => .add (x.absolute b) (y.absolute b) (d.absolute b)
  | .mul x y d => .mul (x.absolute b) (y.absolute b) (d.absolute b)
  | .inp d => .inp (d.absolute b)
  | .out x => .out (x.absolute b)
  | .jnz c t => .jnz (c.absolute b) (t.absolute b)
  | .jz c t => .jz (c.absolute b) (t.absolute b)
  | .lt x y d => .lt (x.absolute b) (y.absolute b) (d.absolute b)
  | .eq x y d => .eq (x.absolute b) (y.absolute b) (d.absolute b)
  | .arb x => .arb (x.absolute b)
  | .hlt => .hlt

end Sys2Proof

namespace Sys2Proof.Machine

/-! ## Operands, from 30_encoding.md R60 and R61 -/

/-- The address an operand forms: `param` in position mode, `rb + param` in relative mode, none in immediate mode. -/
def State.effective (s : State) (o : Operand) : Option Int :=
  match o.mode with
  | .position => some o.param
  | .immediate => none
  | .relative => some (s.rb + o.param)

/-- The value of the source operand `o` (R60), or none where its address is negative. -/
def State.source (s : State) (o : Operand) : Option Int :=
  match s.effective o with
  | none => some o.param
  | some a => if a < 0 then none else some (s.mem.read a.toNat)

/-- The source operand `o` can be read in `s` and its value is `x`. -/
abbrev Reads (s : State) (o : Operand) (x : Int) : Prop := s.source o = some x

/-- The write target `o` can be written in `s` and names the cell `n` (R61). -/
abbrev Targets (s : State) (o : Operand) (n : Nat) : Prop := s.effective o = some (n : Int)

/-- The operand `o` forms the negative address `a` (20_memory.md R35). -/
abbrev NegativeAt (s : State) (o : Operand) (a : Int) : Prop := s.effective o = some a ∧ a < 0

/-! ## Fault records, from 60_exceptions.md R152 -/

/-- A record has the fields that the table of R152 gives its cause and sub-cause, and no others. -/
def FaultRecord.wellShaped (r : FaultRecord) : Prop :=
  match r.cause, r.subcause with
  | .decodeError, some .unknownOpcode => r.word.isSome ∧ r.address = none ∧ r.param = none
  | .decodeError, some .invalidMode => r.word.isSome ∧ r.address = none ∧ r.param = none
  | .decodeError, some .immediateWriteTarget => r.word.isSome ∧ r.address = none ∧ r.param.isSome
  | .addressError, some .fetch => r.word = none ∧ r.address = some r.ip ∧ r.ip < 0 ∧ r.param = none
  | .addressError, some .read => r.word.isSome ∧ (∃ a < 0, r.address = some a) ∧ r.param.isSome
  | .addressError, some .write => r.word.isSome ∧ (∃ a < 0, r.address = some a) ∧ r.param.isSome
  | .missingInputError, none => r.word.isSome ∧ r.address = none ∧ r.param = none
  | _, _ => False

/-- The record speaks of the instruction at `ip` of the state `s`: its address and its word are that state's. -/
def FaultRecord.speaksOf (r : FaultRecord) (s : State) : Prop :=
  r.ip = s.ip ∧ r.word = s.wordAt

/-! ## The invariant -/

/-- What holds of every reachable state: memory is canonical; the core is not both terminated and faulted
(10_state.md R25); and a latched record is one of a cause that is latched (R156), has the fields of R152, and still
speaks of the instruction at `ip`, since a fault changes nothing else and nothing executes after it (R160, R113). -/
structure State.Inv (s : State) : Prop where
  memory    : s.mem.wf
  exclusive : s.fault ≠ none → s.terminated = false
  latched   : ∀ r, s.fault = some r → r.cause.isLatched = true ∧ r.wellShaped ∧ r.speaksOf s

/-! ## Calls without a bound (46_execution_driver.md R122) -/

/-- The call (STEP where `streaming`, else RUN) issued in `s` returns the result `r` and leaves the state `t`. A call
that never returns has no such `r` and `t`. -/
def Returns (streaming : Bool) (s : State) (r : Result) (t : State) : Prop :=
  ∃ fuel, drive streaming fuel s = .returned r t

/-- Successive STEP calls, with no command between them, return `Produced` of the values listed, in order, and lead from
`s` to `t`. -/
inductive Produces : State → List Int → State → Prop where
  | nil (s : State) : Produces s [] s
  | cons (s u t : State) (v : Int) (vs : List Int) :
      Returns true s (.produced v) u → Produces u vs t → Produces s (v :: vs) t

/-! ## Safe runs (46_execution_driver.md R125) -/

/-- `k` steps from `s` end in `t`, no step stopping and no fault latched on the way: the premise under which a claim may
speak of a program's final state. -/
def SafeRun (k : Nat) (s t : State) : Prop :=
  Sys2Proof.core.run k s = .next t ∧ t.fault = none

end Sys2Proof.Machine
end

