-- ==== Sys2Proof/Certificates/Slice0/Obligations.lean ====
section
/-! DEFINITION. The statements for the provers. Each docstring names the rule of spec/ it formalises. -/

open Sys2Proof Sys2Proof.Machine

/-! ## Reset and the host's commands -/

/-- 70_reset_and_hazards.md R180, whole: the state after power-on, that it is LOAD's for the empty program and no inputs
with the default not set, that the core is running and idle, and that RUN and STEP there report an unknown opcode. -/
def Obligations.PowerOnResetState : Prop :=
  (∀ a, State.reset.mem.read a = 0) ∧ State.reset.ip = 0 ∧ State.reset.rb = 0 ∧ State.reset.inq = [] ∧
  State.reset.outq = [] ∧ State.reset.terminated = false ∧ State.reset.defaultInput = none ∧
  State.reset.fault = none ∧ State.reset.status = .running ∧ Session.reset = ⟨State.reset, .idle⟩ ∧
  (∀ fuel s, perform fuel .powerOn s = .done .nothing State.reset) ∧
  (∀ fuel s, s.defaultInput = none → perform fuel (.load [] []) s = .done .nothing State.reset) ∧
  ∀ fuel a, a = .run ∨ a = .step → ∃ t, perform (fuel + 1) a State.reset =
    .done (.call (.fault ⟨.decodeError, some .unknownOpcode, 0, some 0, none, none⟩)) t ∧ t.status = .faulted

/-- The state after power-on meets the model's invariant `State.Inv`, whose canonical form of memory is the model's choice
(assumption log 1). -/
def Obligations.ResetMeetsInvariant : Prop := State.reset.Inv

/-- What LOAD makes of every element, whatever the state before it (47_host_commands.md R130). The clause `t.mem.wf` is no
part of that rule: the canonical form of memory is the model's choice (assumption log 1). -/
def Obligations.LoadInstallsImage : Prop :=
  ∀ (fuel : Nat) (program inputs : List Int) (s : State), ∃ t,
    perform fuel (.load program inputs) s = .done .nothing t ∧
    (∀ a, t.mem.read a = program.getD a 0) ∧ t.mem.wf ∧ t.ip = 0 ∧ t.rb = 0 ∧ t.terminated = false ∧ t.outq = [] ∧
    t.inq = inputs ∧ t.fault = none ∧ t.defaultInput = s.defaultInput

/-- ADD_INPUT, SET_DEFAULT and CLEAR_DEFAULT: their whole effect, in every status. -/
def Obligations.InputCommandsWriteOneElement : Prop :=
  ∀ (fuel : Nat) (v : Int) (s : State),
    perform fuel (.addInput v) s = .done .nothing { s with inq := s.inq ++ [v] } ∧
    perform fuel (.setDefault v) s = .done .nothing { s with defaultInput := some v } ∧
    perform fuel .clearDefault s = .done .nothing { s with defaultInput := none }

/-- PEEK_OUTPUTS, TAKE_OUTPUTS, MEM_PEEK and STATUS: their results and their whole effect. -/
def Obligations.RetrievalCommandsReport : Prop :=
  ∀ (fuel a : Nat) (s : State),
    perform fuel .peekOutputs s = .done (.outputs s.outq) s ∧
    perform fuel .takeOutputs s = .done (.outputs s.outq) { s with outq := [] } ∧
    perform fuel (.memPeek a) s = .done (.cell (s.mem.read a)) s ∧
    perform fuel .status s =
      .done (.status ⟨s.status, s.ip, s.rb, s.inq.length, s.outq.length, s.defaultInput, s.fault⟩) s

/-- Only SET_DEFAULT, CLEAR_DEFAULT and power-on reset write the default input; no instruction, no call and no LOAD
does. -/
def Obligations.DefaultInputWritersAreThree : Prop :=
  ∀ (fuel : Nat) (a : HostAction) (s : State) (r : HostResult) (t : State), perform fuel a s = .done r t →
    t.defaultInput = s.defaultInput ∨ (∃ v, a = .setDefault v ∧ t.defaultInput = some v) ∨
    (a = .clearDefault ∧ t.defaultInput = none) ∨ (a = .powerOn ∧ t.defaultInput = none)

/-- A terminated or faulted core is left only by LOAD and power-on reset: any other command leaves its status, its
memory, its registers and its latch as they were. -/
def Obligations.OnlyResetLeavesTerminalStatus : Prop :=
  ∀ (fuel : Nat) (a : HostAction) (s : State) (r : HostResult) (t : State), s.status ≠ .running →
    perform fuel a s = .done r t → (∃ p q, a = .load p q) ∨ a = .powerOn ∨
      (t.status = s.status ∧ t.mem = s.mem ∧ t.ip = s.ip ∧ t.rb = s.rb ∧ t.terminated = s.terminated ∧
        t.fault = s.fault)

/-- 46_execution_driver.md R121, whole: every row of its table. The first half is what an idle core does with a command,
the second what a running core does with one instruction of the call in progress; an executing core accepts no command
and an idle one does nothing by itself. -/
def Obligations.SuspendResumeTransitions : Prop :=
  (∀ s : State,
    (∀ p q, Session.issue (.load p q) ⟨s, .idle⟩ = some (⟨s.load p q, .idle⟩, some .nothing) ∧
      (s.load p q).status = .running) ∧
    Session.issue .powerOn ⟨s, .idle⟩ = some (⟨State.reset, .idle⟩, some .nothing) ∧ State.reset.status = .running ∧
    (s.status = .running →
      Session.issue .run ⟨s, .idle⟩ = some (⟨s, .executing false⟩, none) ∧
      Session.issue .step ⟨s, .idle⟩ = some (⟨s, .executing true⟩, none)) ∧
    (s.status = .terminated → ∀ a, a = .run ∨ a = .step →
      Session.issue a ⟨s, .idle⟩ = some (⟨s, .idle⟩, some (.call .halted))) ∧
    (∀ r, s.fault = some r → ∀ a, a = .run ∨ a = .step →
      Session.issue a ⟨s, .idle⟩ = some (⟨s, .idle⟩, some (.call (.fault r)))) ∧
    (∀ a, (∀ p q, a ≠ .load p q) → a ≠ .powerOn → a ≠ .run → a ≠ .step →
      ∃ t r, Session.issue a ⟨s, .idle⟩ = some (⟨t, .idle⟩, some r) ∧ t.status = s.status) ∧
    (∀ a b, Session.issue a ⟨s, .executing b⟩ = none) ∧ Session.tick ⟨s, .idle⟩ = some (⟨s, .idle⟩, none)) ∧
  ∀ (b : Bool) (s : State), s.status = .running →
    (∀ (i : Instr) (t : State), fetchInstr s = .ok i → step s = .next t → t.fault = none →
      ((∀ a, i ≠ .out a) → i ≠ .hlt →
        Session.tick ⟨s, .executing b⟩ = some (⟨t, .executing b⟩, none) ∧ t.status = .running) ∧
      (∀ a x, i = .out a → Reads s a x → t.status = .running ∧
        Session.tick ⟨s, .executing false⟩ = some (⟨t, .executing false⟩, none) ∧
        Session.tick ⟨s, .executing true⟩ = some (⟨{ t with outq := s.outq }, .idle⟩, some (.produced x))) ∧
      (i = .hlt → Session.tick ⟨s, .executing b⟩ = some (⟨t, .idle⟩, some .halted) ∧ t.status = .terminated)) ∧
    (∀ r, step s = .fault (.missingInput r) →
      Session.tick ⟨s, .executing b⟩ = some (⟨s, .idle⟩, some (.fault r))) ∧
    ∀ r t, step s = .next t → t.fault = some r →
      Session.tick ⟨s, .executing b⟩ = some (⟨t, .idle⟩, some (.fault r)) ∧ t.status = .faulted

/-- A call issued to an idle core and ticked instruction by instruction returns exactly what the runner `drive` returns
for it, and leaves the core idle in the same state. That a HLT ends the call in its own transition, where the loop of
46_execution_driver.md R111 takes one more pass, is the model's reading of R121 (assumption log 9, DEDUCED). -/
def Obligations.SessionRefinesDrive : Prop :=
  ∀ (b : Bool) (s t : State) (r : Result), Returns b s r t ↔
    ∃ u, (Session.issue (if b then .step else .run) ⟨s, .idle⟩ = some (u, some (.call r)) ∧ u = ⟨t, .idle⟩) ∨
      (Session.issue (if b then .step else .run) ⟨s, .idle⟩ = some (u, none) ∧
        ∃ n, Session.ticks n u = some (⟨t, .idle⟩, some r))

/-! ## Decoding and encoding -/

/-- For every well-formed instruction, with every operand at every value: decoding its cells gives it back, whatever
cells follow. -/
def Obligations.DecodeOfEncode : Prop :=
  ∀ (i : Instr) (rest : List Int), i.wellFormed = true → decodeCells (encode i ++ rest) = .ok i

/-- A decoded instruction is well-formed, and encoding it gives back the parameter cells and the word, less the surplus
mode digits the word may have above its last parameter's. -/
def Obligations.EncodeOfDecode : Prop :=
  ∀ (w : Int) (param : Nat → Int) (i : Instr), decode w param = .ok i →
    i.wellFormed = true ∧
    encode i = (w % 10 ^ (2 + i.opcode.arity)) :: (List.range i.opcode.arity).map (fun j => param (j + 1))

/-- 30_encoding.md R53, whole: a word up to 99 is its own opcode with no modes, so 0 and every negative word are unknown
opcodes. -/
def Obligations.SmallWordsAreTheirOwnOpcode : Prop :=
  (∀ w : Int, w ≤ 99 → decodeWord w = .ok (w, [])) ∧
  ∀ w : Int, w ≤ 0 → decodeHead w = .error .unknownOpcode

/-- 30_encoding.md R56, whole: InvalidMode exactly when some digit above the low two is 3 to 9, whatever the opcode and
its arity. -/
def Obligations.InvalidModeExactly : Prop :=
  (∀ w : Int, decodeHead w = .error .invalidMode ↔ 100 ≤ w ∧ ∃ k ≥ 1, 3 ≤ digit (w.toNat / 100) k) ∧
  decodeHead 304 = .error .invalidMode ∧ decodeHead 3004 = .error .invalidMode ∧
  decodeHead 399 = .error .invalidMode

/-- 30_encoding.md R68, whole: the unknown opcodes. -/
def Obligations.UnknownOpcodeExactly : Prop :=
  ∀ w : Int, decodeHead w = .error .unknownOpcode ↔
    w ≤ 0 ∨ (10 ≤ w ∧ w ≤ 98) ∨
    (100 ≤ w ∧ (∀ k ≥ 1, digit (w.toNat / 100) k ≤ 2) ∧ (w % 100 = 0 ∨ (10 ≤ w % 100 ∧ w % 100 ≤ 98)))

/-- ImmediateWriteTarget exactly for the words with opcode 1, 2, 7 or 8 and ten-thousands digit 1 and those with opcode
3 and hundreds digit 1, all mode digits being valid; it names the parameter. -/
def Obligations.ImmediateTargetExactly : Prop :=
  ∀ (w : Int) (k : Nat), decodeHead w = .error (.immediateWriteTarget k) ↔
    100 ≤ w ∧ (∀ j ≥ 1, digit (w.toNat / 100) j ≤ 2) ∧
    ((k = 3 ∧ (w % 100 = 1 ∨ w % 100 = 2 ∨ w % 100 = 7 ∨ w % 100 = 8) ∧ digit (w.toNat / 100) 3 = 1) ∨
     (k = 1 ∧ w % 100 = 3 ∧ digit (w.toNat / 100) 1 = 1))

/-- A word selects a row exactly when it is not negative, its low two digits are the row's opcode and every higher digit
is 0, 1 or 2, the write target's not 1; and each parameter's mode is that of its digit. -/
def Obligations.RowSelectedExactly : Prop :=
  (∀ (w : Int) (op : Opcode), (∃ ms, decodeHead w = .ok ⟨op, ms⟩) ↔
    0 ≤ w ∧ w % 100 = op.code ∧ (∀ k ≥ 1, digit (w.toNat / 100) k ≤ 2) ∧
    ∀ k, op.writeParam = some k → digit (w.toNat / 100) k ≠ 1) ∧
  ∀ (w : Int) (h : Head) (k : Nat), decodeHead w = .ok h → 1 ≤ k →
    (modeOf h.modes k).digit = digit (w.toNat / 100) k

/-- 30_encoding.md R57, whole: digits 0 to 2 above the last parameter's select nothing and raise nothing. -/
def Obligations.SurplusDigitsIgnored : Prop :=
  (∀ (i : Instr) (e : Nat), i.wellFormed = true → (∀ k ≥ 1, digit e k ≤ 2) →
    decode ((encodeWord i + 10 ^ (2 + i.opcode.arity) * e : Nat) : Int) (fun k => (encode i).getD k 0) = .ok i) ∧
  (∀ param, decode 1104 param = decode 104 param) ∧
  (∀ param, decode 199 param = .ok .hlt ∧ decode 1099 param = .ok .hlt) ∧
  ∀ param, decode 100004 param = decode 4 param

/-- A few words written out from the table of 30_encoding.md R51 decode to the instructions they stand for. -/
def Obligations.ListedWordsDecode : Prop :=
  decodeCells [1002, 4, 3, 4] = .ok (.mul ⟨.position, 4⟩ ⟨.immediate, 3⟩ ⟨.position, 4⟩) ∧
  decodeCells [21101, 5, 6, 3] = .ok (.add ⟨.immediate, 5⟩ ⟨.immediate, 6⟩ ⟨.relative, 3⟩) ∧
  decodeCells [203, 2] = .ok (.inp ⟨.relative, 2⟩) ∧
  decodeCells [104, -3] = .ok (.out ⟨.immediate, -3⟩) ∧
  decodeCells [1105, 1, 4] = .ok (.jnz ⟨.immediate, 1⟩ ⟨.immediate, 4⟩) ∧
  decodeCells [1006, 101, 0] = .ok (.jz ⟨.position, 101⟩ ⟨.immediate, 0⟩) ∧
  decodeCells [1107, 7, 8, 5] = .ok (.lt ⟨.immediate, 7⟩ ⟨.immediate, 8⟩ ⟨.position, 5⟩) ∧
  decodeCells [22208, 0, 1, 2] = .ok (.eq ⟨.relative, 0⟩ ⟨.relative, 1⟩ ⟨.relative, 2⟩) ∧
  decodeCells [109, 19] = .ok (.arb ⟨.immediate, 19⟩) ∧
  decodeCells [99] = .ok .hlt

/-! ## The instructions: what each does wherever its operands can be read and its target written -/

/-- ADD stores the exact sum; the next state differs from the one before in that cell and in `ip` only. -/
def Obligations.AddStoresSum : Prop :=
  ∀ (s : State) (a b d : Operand) (x y : Int) (n : Nat), Reads s a x → Reads s b y → Targets s d n →
    ∃ m, exec (.add a b d) s = .next { s with mem := m, ip := s.ip + 4 } ∧
      ∀ c, m.read c = if c = n then x + y else s.mem.read c

/-- MUL stores the exact product. -/
def Obligations.MulStoresProduct : Prop :=
  ∀ (s : State) (a b d : Operand) (x y : Int) (n : Nat), Reads s a x → Reads s b y → Targets s d n →
    ∃ m, exec (.mul a b d) s = .next { s with mem := m, ip := s.ip + 4 } ∧
      ∀ c, m.read c = if c = n then x * y else s.mem.read c

/-- 41_input_output.md R87, whole, through IN: the front of the queue where there is one, the default not consulted;
else the default, which stays; else MissingInputError. -/
def Obligations.InputFromQueueThenDefault : Prop :=
  ∀ (s : State) (d : Operand) (n : Nat), Targets s d n →
    (∀ v rest, s.inq = v :: rest →
      ∃ m, exec (.inp d) s = .next { s with mem := m, ip := s.ip + 2, inq := rest } ∧
        ∀ c, m.read c = if c = n then v else s.mem.read c) ∧
    (∀ v, s.inq = [] → s.defaultInput = some v →
      ∃ m, exec (.inp d) s = .next { s with mem := m, ip := s.ip + 2 } ∧
        ∀ c, m.read c = if c = n then v else s.mem.read c) ∧
    (s.inq = [] → s.defaultInput = none →
      ∃ r, exec (.inp d) s = .fault (.missingInput r) ∧ r.cause = .missingInputError)

/-- OUT appends the operand's value to the output queue. -/
def Obligations.OutAppendsValue : Prop :=
  ∀ (s : State) (a : Operand) (x : Int), Reads s a x →
    exec (.out a) s = .next { s with outq := s.outq ++ [x], ip := s.ip + 2 }

/-- JNZ jumps exactly when the condition is not zero. -/
def Obligations.JnzJumpsUnlessZero : Prop :=
  ∀ (s : State) (c g : Operand) (x y : Int), Reads s c x → Reads s g y →
    exec (.jnz c g) s = .next { s with ip := if x = 0 then s.ip + 3 else y }

/-- JZ jumps exactly when the condition is zero. -/
def Obligations.JzJumpsIfZero : Prop :=
  ∀ (s : State) (c g : Operand) (x y : Int), Reads s c x → Reads s g y →
    exec (.jz c g) s = .next { s with ip := if x = 0 then y else s.ip + 3 }

/-- LT stores 1 if the first operand is less, else 0, in the order of the integers. -/
def Obligations.LtStoresOrder : Prop :=
  ∀ (s : State) (a b d : Operand) (x y : Int) (n : Nat), Reads s a x → Reads s b y → Targets s d n →
    ∃ m, exec (.lt a b d) s = .next { s with mem := m, ip := s.ip + 4 } ∧
      ∀ c, m.read c = if c = n then (if x < y then 1 else 0) else s.mem.read c

/-- EQ stores 1 if the operands are equal, else 0. -/
def Obligations.EqStoresEquality : Prop :=
  ∀ (s : State) (a b d : Operand) (x y : Int) (n : Nat), Reads s a x → Reads s b y → Targets s d n →
    ∃ m, exec (.eq a b d) s = .next { s with mem := m, ip := s.ip + 4 } ∧
      ∀ c, m.read c = if c = n then (if x = y then 1 else 0) else s.mem.read c

/-- ARB adds the operand's value, read through the old base, to the relative base. -/
def Obligations.ArbAddsToBase : Prop :=
  ∀ (s : State) (a : Operand) (x : Int), Reads s a x →
    exec (.arb a) s = .next { s with rb := s.rb + x, ip := s.ip + 2 }

/-- HLT sets `terminated` and advances `ip` by 1, in every state. -/
def Obligations.HltTerminates : Prop :=
  ∀ s : State, exec .hlt s = .next { s with terminated := true, ip := s.ip + 1 }

/-! ## Faults -/

/-- An instruction whose write target is immediate raises ImmediateWriteTarget on every operand and has no effect. -/
def Obligations.ImmediateTargetRaises : Prop :=
  ∀ (s : State) (i : Instr) (k : Nat) (o : Operand), i.opcode.writeParam = some k → i.operands[k - 1]? = some o →
    o.mode = .immediate →
    exec i s = .next { s with fault := some ⟨.decodeError, some .immediateWriteTarget, s.ip, s.wordAt, none, some k⟩ }

/-- 60_exceptions.md R159, whole: the first that applies of the six faults is the one reported, with its record; the
first five are latched and change nothing else, the last changes nothing. -/
def Obligations.FirstFaultIsReported : Prop :=
  ∀ s : State, s.fault = none → s.terminated = false →
    (s.ip < 0 →
      step s = .next { s with fault := some ⟨.addressError, some .fetch, s.ip, none, some s.ip, none⟩ }) ∧
    ∀ w, 0 ≤ s.ip → w = s.mem.read s.ip.toNat →
      (¬ ModesValid w →
        step s = .next { s with fault := some ⟨.decodeError, some .invalidMode, s.ip, some w, none, none⟩ }) ∧
      (ModesValid w → (∀ op : Opcode, opcodeOf w ≠ op.code) →
        step s = .next { s with fault := some ⟨.decodeError, some .unknownOpcode, s.ip, some w, none, none⟩ }) ∧
      (∀ (op : Opcode) (k : Nat), ModesValid w → opcodeOf w = op.code → op.writeParam = some k → modeDigit w k = 1 →
        step s = .next
          { s with fault := some ⟨.decodeError, some .immediateWriteTarget, s.ip, some w, none, some k⟩ }) ∧
      ∀ i : Instr, decode w (fun k => s.mem.read (s.ip.toNat + k)) = .ok i →
        (∀ (k : Nat) (o : Operand) (e : Int), 1 ≤ k → i.operands[k - 1]? = some o → NegativeAt s o e →
          (∀ (j : Nat) (p : Operand) (f : Int), 1 ≤ j → j < k → i.operands[j - 1]? = some p → ¬ NegativeAt s p f) →
          step s = .next { s with fault := some ⟨.addressError,
            some (if i.opcode.writeParam = some k then .write else .read), s.ip, some w, some e, some k⟩ }) ∧
        (∀ d, i = .inp d → (∀ e, ¬ NegativeAt s d e) → s.inq = [] → s.defaultInput = none →
          step s = .fault (.missingInput ⟨.missingInputError, none, s.ip, some w, none, none⟩))

/-- 60_exceptions.md R160, whole: every fault is precise. A step that latches a fault changes nothing else, and the
fault is a DecodeError or an AddressError; a step that reports a missing input leaves the call with the state as it
was. -/
def Obligations.FaultsArePrecise : Prop :=
  (∀ (s t : State) (r : FaultRecord), s.fault = none → step s = .next t → t.fault = some r →
    t = { s with fault := some r } ∧ (r.cause = .decodeError ∨ r.cause = .addressError)) ∧
  ∀ (s : State) (r : FaultRecord) (b : Bool) (fuel : Nat), step s = .fault (.missingInput r) →
    drive b (fuel + 1) s = .returned (.fault r) s

/-- Every record a step raises has the fields that the table of 60_exceptions.md R152 gives its cause, no others, and its
`ip` and word are those of the faulting instruction. It says that an address is negative and that a parameter number is
there; which address and which parameter, `Obligations.FirstFaultIsReported` says. -/
def Obligations.RecordsHaveTheirFields : Prop :=
  (∀ (s t : State) (r : FaultRecord), s.fault = none → step s = .next t → t.fault = some r →
    r.wellShaped ∧ r.speaksOf s) ∧
  ∀ (s : State) (r : FaultRecord), step s = .fault (.missingInput r) → r.wellShaped ∧ r.speaksOf s

/-- 46_execution_driver.md R113, whole: on a faulted core nothing executes, a call returns the latched record and
changes nothing, and only LOAD or power-on reset clears the latch. -/
def Obligations.FaultedCoreExecutesNothing : Prop :=
  ∀ (s : State) (r : FaultRecord), s.fault = some r →
    step s = .fault (.latched r) ∧
    (∀ b fuel, drive b fuel s = .returned (.fault r) s) ∧
    ∀ fuel a q t, perform fuel a s = .done q t → (∀ p i, a ≠ .load p i) → a ≠ .powerOn → t.fault = some r

/-- 46_execution_driver.md R112, whole: on a terminated core nothing executes, every call returns Halted and changes
nothing, any number of times. -/
def Obligations.TerminatedCoreExecutesNothing : Prop :=
  ∀ s : State, s.fault = none → s.terminated = true →
    (∀ b fuel, drive b fuel s = .returned .halted s) ∧ ∀ k, Sys2Proof.core.run k s = .next s

/-- The terminated state is reached only via opcode 99, and no step leaves it. -/
def Obligations.OnlyHltTerminates : Prop :=
  ∀ s t : State, step s = .next t →
    (s.terminated = false → t.terminated = true →
      ∃ w, s.wordAt = some w ∧ 99 ≤ w ∧ w % 100 = 99 ∧ t.ip = s.ip + 1) ∧
    (s.terminated = true → t.terminated = true)

/-- The model gives every instruction and every word a meaning: neither a step nor a call is ever refused. -/
def Obligations.NothingIsRefused : Prop :=
  (∀ s q, step s ≠ .refused q) ∧ (∀ i s q, exec i s ≠ .refused q) ∧ ∀ b fuel s q, drive b fuel s ≠ .refused q

/-! ## Frames -/

/-- What ADD, MUL, LT and EQ leave unchanged. `addr 3 d s` is the address the meaning stores to. -/
def Obligations.StoreInstructionsFrame : Prop :=
  ∀ (s t : State) (i : Instr) (a b d : Operand),
    i = .add a b d ∨ i = .mul a b d ∨ i = .lt a b d ∨ i = .eq a b d → exec i s = .next t →
    t.rb = s.rb ∧ t.inq = s.inq ∧ t.outq = s.outq ∧ t.terminated = s.terminated ∧
    t.defaultInput = s.defaultInput ∧ (t.fault = s.fault ∨ ∃ r, t = { s with fault := some r }) ∧
    (∀ n, addr 3 d s = .ok n → ∀ c, c ≠ n → t.mem.read c = s.mem.read c) ∧
    ((∀ n, addr 3 d s ≠ .ok n) → ∀ c, t.mem.read c = s.mem.read c)

/-- What IN leaves unchanged: it may also take the front of the input queue. -/
def Obligations.InputFrame : Prop :=
  ∀ (s t : State) (d : Operand), exec (.inp d) s = .next t →
    t.rb = s.rb ∧ (t.inq = s.inq.tail ∨ ∃ r, t = { s with fault := some r }) ∧ t.outq = s.outq ∧
    t.terminated = s.terminated ∧ t.defaultInput = s.defaultInput ∧
    (t.fault = s.fault ∨ ∃ r, t = { s with fault := some r }) ∧
    (∀ n, addr 1 d s = .ok n → ∀ c, c ≠ n → t.mem.read c = s.mem.read c) ∧
    ((∀ n, addr 1 d s ≠ .ok n) → ∀ c, t.mem.read c = s.mem.read c)

/-- What OUT, JNZ, JZ, ARB and HLT leave unchanged: all of memory and the input queue; the output queue but for OUT, the
relative base but for ARB, `terminated` but for HLT. -/
def Obligations.NonStoringInstructionsFrame : Prop :=
  ∀ (s t : State) (i : Instr), i.opcode.writeParam = none → exec i s = .next t →
    (∀ c, t.mem.read c = s.mem.read c) ∧ t.inq = s.inq ∧ t.defaultInput = s.defaultInput ∧
    (t.fault = s.fault ∨ ∃ r, t = { s with fault := some r }) ∧
    (t.outq = s.outq ∨ ∃ a, i = .out a) ∧ (t.rb = s.rb ∨ ∃ a, i = .arb a) ∧
    (t.terminated = s.terminated ∨ i = .hlt)

/-! ## Steps -/

/-- A step of a running core runs the instruction that the cells at `ip` decode to; nothing stands around it. -/
def Obligations.StepRunsDecodedInstruction : Prop :=
  ∀ (s : State) (i : Instr), s.fault = none → s.terminated = false → 0 ≤ s.ip →
    decode (s.mem.read s.ip.toNat) (fun k => s.mem.read (s.ip.toNat + k)) = .ok i → step s = exec i s

/-- In every state, the word placed by `withFetchWord` is the one the next step runs. This is about the model's own
loading function (assumption log 5). -/
def Obligations.PlacedWordIsRun : Prop :=
  ∀ (s : State) (nbits w : Nat) (i : Instr), decodeTableWord nbits w = some i →
    step (s.withFetchWord nbits w) = exec i (s.withFetchWord nbits w)

/-- 20_memory.md R43: the value an instruction stores is what a later fetch of that cell reads, as an instruction word
or as a parameter, while that memory stands. -/
def Obligations.StoreSeenByNextFetch : Prop :=
  ∀ (s t u : State) (a b d : Operand) (i : Instr) (x y v : Int) (n : Nat),
    Reads s a x → Reads s b y → Targets s d n →
    ((i = .add a b d ∧ v = x + y) ∨ (i = .mul a b d ∧ v = x * y) ∨
      (i = .lt a b d ∧ v = if x < y then 1 else 0) ∨ (i = .eq a b d ∧ v = if x = y then 1 else 0) ∨
      (i = .inp d ∧ (s.inq.head? = some v ∨ (s.inq = [] ∧ s.defaultInput = some v)))) →
    exec i s = .next t → u.mem = t.mem →
    (u.ip = n → u.wordAt = some v) ∧ ∀ k : Nat, u.ip + k = n → u.param k = v

/-- Every instruction but JNZ and JZ advances `ip` by its length, and those two do so or write the value of their second
operand. A raised fault leaves `ip`. -/
def Obligations.OnlyJumpsLeaveSequence : Prop :=
  ∀ (s t : State) (i : Instr), exec i s = .next t →
    t = { s with fault := t.fault } ∨ t.ip = s.ip + i.opcode.length ∨
    ∃ c g y, (i = .jnz c g ∨ i = .jz c g) ∧ Reads s g y ∧ t.ip = y

/-- 42_jumps.md R92, whole: a taken jump writes its target as it is; the next fetch faults if that is negative, and is an
unknown opcode if the cell there is 0. -/
def Obligations.JumpTargetTakenAsIs : Prop :=
  ∀ (s : State) (i : Instr) (c g : Operand) (x y : Int), Reads s c x → Reads s g y →
    (i = .jnz c g ∧ x ≠ 0) ∨ (i = .jz c g ∧ x = 0) →
    exec i s = .next { s with ip := y } ∧
    (s.fault = none → s.terminated = false →
      (y < 0 → step { s with ip := y } =
        .next { s with ip := y, fault := some ⟨.addressError, some .fetch, y, none, some y, none⟩ }) ∧
      (0 ≤ y → s.mem.read y.toNat = 0 → step { s with ip := y } =
        .next { s with ip := y, fault := some ⟨.decodeError, some .unknownOpcode, y, some 0, none, none⟩ }))

/-! ## Addressing modes -/

/-- 20_memory.md R46, whole: a relative operand acts exactly as the position operand of the cell it names, faults
included, for every instruction; and what a relative write stores, both ways of reading find. -/
def Obligations.RelativeBaseRoundTrip : Prop :=
  (∀ (s : State) (i : Instr), exec (i.absolute s.rb) s = exec i s) ∧
  ∀ (s : State) (a b : Operand) (x y p : Int), Reads s a x → Reads s b y → 0 ≤ s.rb + p →
    ∃ t, exec (.add a b ⟨.relative, p⟩) s = .next t ∧ exec (.add a b ⟨.position, s.rb + p⟩) s = .next t ∧
      Reads t ⟨.relative, p⟩ (x + y) ∧ Reads t ⟨.position, s.rb + p⟩ (x + y)

/-- 30_encoding.md R66, whole: the result depends on the operands' values and on the target's address, never on the
modes that delivered them. -/
def Obligations.ResultIndependentOfMode : Prop :=
  ∀ (s : State) (a a' b b' d d' : Operand) (x y : Int) (n : Nat),
    Reads s a x → Reads s a' x → Reads s b y → Reads s b' y → Targets s d n → Targets s d' n →
    exec (.add a b d) s = exec (.add a' b' d') s ∧ exec (.mul a b d) s = exec (.mul a' b' d') s ∧
    exec (.lt a b d) s = exec (.lt a' b' d') s ∧ exec (.eq a b d) s = exec (.eq a' b' d') s ∧
    exec (.inp d) s = exec (.inp d') s ∧ exec (.out a) s = exec (.out a') s ∧
    exec (.jnz a b) s = exec (.jnz a' b') s ∧ exec (.jz a b) s = exec (.jz a' b') s ∧
    exec (.arb a) s = exec (.arb a') s

/-- 44_relative_base.md R101, whole: an instruction without a relative operand does not depend on `rb` (ARB adds to
whatever it holds), and one with a relative operand uses the value `rb` had when it started. -/
def Obligations.BaseUsedOnlyByRelativeOperands : Prop :=
  (∀ (s : State) (i : Instr) (z : Int), (∀ o ∈ i.operands, o.mode ≠ .relative) →
    (∀ t, exec i s = .next t → exec i { s with rb := s.rb + z } = .next { t with rb := t.rb + z }) ∧
    (∀ f, exec i s = .fault f → exec i { s with rb := s.rb + z } = .fault f)) ∧
  ∀ (s : State) (p : Int), 0 ≤ s.rb + p →
    exec (.arb ⟨.relative, p⟩) s =
      .next { s with rb := s.rb + s.mem.read (s.rb + p).toNat, ip := s.ip + 2 }

/-! ## Calls -/

/-- 46_execution_driver.md R124, whole: if RUN halts with the outputs `v1 … vn`, then n STEPs return them one by one in
that order, the next returns Halted, and all but the output queue is left as the RUN leaves it. -/
def Obligations.StreamingEquivalence : Prop :=
  ∀ s t : State, s.outq = [] → Returns false s .halted t →
    ∃ u, Produces s t.outq u ∧ Returns true u .halted { t with outq := [] }

/-- 46_execution_driver.md R118, whole: the value STEP delivers is the one an OUT just appended, and that element is
removed again; values that were in the queue before stay. -/
def Obligations.StepDeliversItsOutput : Prop :=
  ∀ (s t : State) (v : Int), Returns true s (.produced v) t →
    ∃ u w a, fetchInstr u = .ok (.out a) ∧ u.outq = s.outq ∧ step u = .next w ∧ w.outq = s.outq ++ [v] ∧
      t = { w with outq := s.outq }

/-- What the result of a call says of the state it leaves; RUN never returns Produced. -/
def Obligations.ResultMatchesFinalState : Prop :=
  ∀ (b : Bool) (s t : State) (r : Result), Returns b s r t →
    (∀ v, r = .produced v → b = true ∧ t.fault = none ∧ t.terminated = false) ∧
    (r = .halted → t.fault = none ∧ t.terminated = true) ∧
    ∀ q, r = .fault q → t.fault = some q ∨
      (t.fault = none ∧ t.terminated = false ∧ q.cause = .missingInputError ∧ t.inq = [] ∧ t.defaultInput = none)

/-- A call has one result and one final state, however much fuel the runner is given. -/
def Obligations.CallResultIsUnique : Prop :=
  (∀ b s r r' t t', Returns b s r t → Returns b s r' t' → r = r' ∧ t = t') ∧
  ∀ b s r t fuel more, drive b fuel s = .returned r t → drive b (fuel + more) s = .returned r t

/-- No call reorders or drops what is in the output queue: RUN leaves what was there in front, and STEP leaves the queue
as it was. -/
def Obligations.OutputQueueKeepsItsOrder : Prop :=
  (∀ s r t, Returns false s r t → ∃ vs, t.outq = s.outq ++ vs) ∧ ∀ s r t, Returns true s r t → t.outq = s.outq

/-- 41_input_output.md R88, whole: an IN that raises MissingInputError changes nothing, the core is still running, the
same call raises it again, and once an input is added or a default is set the same IN executes from the start. -/
def Obligations.MissingInputIsRestartable : Prop :=
  ∀ (s : State) (r : FaultRecord), step s = .fault (.missingInput r) →
    s.status = .running ∧ s.inq = [] ∧ (∀ b fuel, drive b (fuel + 1) s = .returned (.fault r) s) ∧
    ∃ d n, fetchInstr s = .ok (.inp d) ∧ Targets s d n ∧ ∀ v,
      (∃ m, step { s with inq := [v] } = .next { s with mem := m, ip := s.ip + 2 } ∧
        ∀ c, m.read c = if c = n then v else s.mem.read c) ∧
      (∃ m, step { s with defaultInput := some v } =
          .next { s with mem := m, ip := s.ip + 2, defaultInput := some v } ∧
        ∀ c, m.read c = if c = n then v else s.mem.read c)

/-! ## Invariants and whole-machine rules -/

/-- Every step keeps the invariant `State.Inv`: canonical memory, never both terminated and faulted, and a latch whose
record still speaks of the instruction at `ip`. The canonical form is the model's choice (assumption log 1). -/
def Obligations.StepKeepsInvariant : Prop :=
  ∀ s t : State, s.Inv → step s = .next t → t.Inv

/-- Every host command, RUN and STEP among them, keeps the invariant, whose canonical form of memory is the model's choice
(assumption log 1). -/
def Obligations.CommandsKeepInvariant : Prop :=
  ∀ (fuel : Nat) (a : HostAction) (s : State) (r : HostResult) (t : State), s.Inv → perform fuel a s = .done r t → t.Inv

/-- Memories in canonical form, which is the model's choice (assumption log 1), that read alike are the same data: whether a
cell was ever written cannot be seen. -/
def Obligations.CanonicalMemoryIsItsReads : Prop :=
  ∀ m m' : Memory, m.wf → m'.wf → (∀ a, m.read a = m'.read a) → m = m'

/-- What the host does to one core neither changes another nor depends on one. -/
def Obligations.CoresAreIsolated : Prop :=
  ∀ (fuel k : Nat) (a : HostAction) (sys sys' : System) (r : HostResult), System.act fuel k a sys = some (r, sys') →
    (∀ j, j ≠ k → sys'[j]? = sys[j]?) ∧
    ∀ other : System, other[k]? = sys[k]? → ∃ other', System.act fuel k a other = some (r, other') ∧
      other'[k]? = sys'[k]?

/-- What `System.relay` does where it passes a value on, from one core to another or back to the same: the receiver's input
queue grows by the value the sender's STEP produced, and nothing else of it changes. The relay as one function is the
model's own (assumption log 10, DESIGN CHOICE), put together from the two primitives of 47_host_commands.md R143. -/
def Obligations.RelayMovesOneValue : Prop :=
  ∀ (fuel i j : Nat) (sys sys' : System) (v : Int),
    System.relay fuel i j sys = some (.call (.produced v), sys') →
    ∃ s t u, sys[i]? = some s ∧ Returns true s (.produced v) t ∧ (sys.set i t)[j]? = some u ∧
      sys' = (sys.set i t).set j { u with inq := u.inq ++ [v] }
end

