-- ==== Sys2Proof/Laws/Decode.lean ====
section
/-! SUPPORT. What the decoder's parts compute, in the claims' own terms (`digit`, `ModesValid`, `opcodeOf`,
`modeDigit`): later proofs cite these and never unfold the digit recursion. -/

namespace Sys2Proof

/-! ### Digits -/

theorem digitsUpTo_getD (fuel q k : Nat) (h : q ≤ fuel) : (digitsUpTo fuel q).getD k 0 = q / 10 ^ k % 10 := by
  induction fuel generalizing q k with
  | zero => obtain rfl : q = 0 := by omega
            simp [digitsUpTo]
  | succ fuel ih =>
    unfold digitsUpTo
    by_cases hq : q = 0
    · simp [hq]
    · cases k with
      | zero => simp [hq]
      | succ k =>
        have := ih (q / 10) k (by omega)
        simpa [hq, Nat.div_div_eq_div_mul, Nat.pow_succ, Nat.mul_comm] using this

/-- Digit `k` of the list of digits, 0 past its end. -/
theorem digits_getD (q k : Nat) : (digits q).getD (k - 1) 0 = digit q k :=
  digitsUpTo_getD q q (k - 1) le_rfl

theorem digits_le_two_iff (q : Nat) : (∀ d ∈ digits q, d ≤ 2) ↔ ∀ k ≥ 1, digit q k ≤ 2 := by
  constructor
  · intro h k hk
    rw [← digits_getD q k, List.getD_eq_getElem?_getD]
    cases hd : (digits q)[k - 1]? with
    | none => simp
    | some d => exact h d (List.mem_of_getElem? hd)
  · intro h d hd
    obtain ⟨k, hk⟩ := List.mem_iff_getElem?.mp hd
    have := h (k + 1) (by omega)
    rw [← digits_getD q (k + 1), Nat.add_sub_cancel, List.getD_eq_getElem?_getD, hk] at this
    exact this

/-! ### Modes -/

@[simp] theorem ofDigit_digit (m : Mode) : Mode.ofDigit m.digit = some m := by cases m <;> rfl

theorem ofDigit_eq_some {d : Nat} {m : Mode} : Mode.ofDigit d = some m ↔ d = m.digit := by
  constructor
  · intro h
    unfold Mode.ofDigit at h
    split at h <;> first | (cases h; rfl) | cases h
  · rintro rfl; exact ofDigit_digit m

theorem ofDigit_isSome {d : Nat} : (∃ m, Mode.ofDigit d = some m) ↔ d ≤ 2 := by
  match d with
  | 0 => simp [Mode.ofDigit]
  | 1 => simp [Mode.ofDigit]
  | 2 => simp [Mode.ofDigit]
  | n + 3 => simp [Mode.ofDigit]

theorem digit_injective {m m' : Mode} (h : m.digit = m'.digit) : m = m' := by
  cases m <;> cases m' <;> first | rfl | cases h

theorem modesOf_cons (d : Nat) (ds : List Nat) : modesOf (d :: ds) =
    match Mode.ofDigit d, modesOf ds with
    | some m, some ms => some (m :: ms)
    | _, _ => none := rfl

theorem modesOf_some {ds : List Nat} {ms : List Mode} (h : modesOf ds = some ms) : ms.map Mode.digit = ds := by
  induction ds generalizing ms with
  | nil => cases h; rfl
  | cons d ds ih =>
    rw [modesOf_cons] at h
    split at h
    · next m ms' hm hms => cases h; simp [ih hms, ofDigit_eq_some.mp hm]
    · cases h

theorem modesOf_isSome {ds : List Nat} : (∃ ms, modesOf ds = some ms) ↔ ∀ d ∈ ds, d ≤ 2 := by
  induction ds with
  | nil => simp [modesOf]
  | cons d ds ih =>
    rw [List.forall_mem_cons, ← ih, ← ofDigit_isSome, modesOf_cons]
    constructor
    · rintro ⟨ms, h⟩
      split at h
      · next m ms' hm hms => exact ⟨⟨m, hm⟩, ms', hms⟩
      · cases h
    · rintro ⟨⟨m, hm⟩, ms, hms⟩
      exact ⟨m :: ms, by simp [hm, hms]⟩

theorem digit_modeOf {q : Nat} {ms : List Mode} (h : modesOf (digits q) = some ms) (k : Nat) :
    (modeOf ms k).digit = digit q k := by
  rw [← digits_getD q k, ← modesOf_some h, modeOf, List.getD_eq_getElem?_getD, List.getD_eq_getElem?_getD,
    List.getElem?_map]
  cases ms[k - 1]? <;> rfl

/-! ### Words -/

theorem opcodeOf_of_large {w : Int} (h : ¬ w ≤ 99) : ((w.toNat % 100 : Nat) : Int) = opcodeOf w := by
  simp [opcodeOf, h, show max w 0 = w by omega]

/-- What `decodeWord` can answer. -/
theorem decodeWord_cases (w : Int) :
    (ModesValid w ∧ ∃ ms, decodeWord w = .ok (opcodeOf w, ms) ∧ ∀ k ≥ 1, (modeOf ms k).digit = modeDigit w k) ∨
    (¬ ModesValid w ∧ decodeWord w = .error .invalidMode) := by
  by_cases hw : w ≤ 99
  · refine .inl ⟨.inl hw, [], by simp [decodeWord, opcodeOf, hw], fun k _ => by simp [modeOf, modeDigit, hw, Mode.digit]⟩
  · cases hm : modesOf (digits (w.toNat / 100)) with
    | some ms =>
      refine .inl ⟨.inr ((digits_le_two_iff _).mp (modesOf_isSome.mp ⟨ms, hm⟩)), ms, ?_, fun k _ => ?_⟩
      · simp only [decodeWord, if_neg hw, hm, opcodeOf_of_large hw]
      · simp only [modeDigit, if_neg hw, digit_modeOf hm k]
    | none =>
      refine .inr ⟨?_, by simp [decodeWord, hw, hm]⟩
      rintro (h | h)
      · exact hw h
      · obtain ⟨ms, h⟩ := modesOf_isSome.mpr ((digits_le_two_iff _).mpr h)
        rw [h] at hm; cases hm

@[simp] theorem ofCode_code (op : Opcode) : Opcode.ofCode op.code = some op := by cases op <;> rfl

theorem ofCode_eq_some {c : Int} {op : Opcode} : Opcode.ofCode c = some op ↔ c = op.code := by
  constructor
  · intro h
    unfold Opcode.ofCode at h
    repeat' split at h
    all_goals first | (cases h; assumption) | cases h
  · rintro rfl; exact ofCode_code op

/-- What `decodeHead` can answer, in the order in which faults are reported (30_encoding.md R69). -/
theorem decodeHead_cases (w : Int) :
    (¬ ModesValid w ∧ decodeHead w = .error .invalidMode) ∨
    (ModesValid w ∧ (∀ op : Opcode, opcodeOf w ≠ op.code) ∧ decodeHead w = .error .unknownOpcode) ∨
    (ModesValid w ∧ ∃ (op : Opcode) (k : Nat), opcodeOf w = op.code ∧ op.writeParam = some k ∧ modeDigit w k = 1 ∧
      decodeHead w = .error (.immediateWriteTarget k)) ∨
    (ModesValid w ∧ ∃ h : Head, opcodeOf w = h.op.code ∧ (∀ k, h.op.writeParam = some k → modeDigit w k ≠ 1) ∧
      (∀ k ≥ 1, (modeOf h.modes k).digit = modeDigit w k) ∧ decodeHead w = .ok h) := by
  unfold decodeHead
  rcases decodeWord_cases w with ⟨hv, ms, hd, hms⟩ | ⟨hv, hd⟩
  · cases ho : Opcode.ofCode (opcodeOf w) with
    | none =>
      refine .inr (.inl ⟨hv, fun op h => ?_, by simp [hd, ho]⟩)
      rw [ofCode_eq_some.mpr h] at ho; cases ho
    | some op =>
      have hop : opcodeOf w = op.code := ofCode_eq_some.mp ho
      cases hw : op.writeParam with
      | none => exact .inr (.inr (.inr ⟨hv, ⟨op, ms⟩, hop, by simp [hw], hms, by simp [hd, ho, hw]⟩))
      | some k =>
        have hk : 1 ≤ k := by cases op <;> simp [Opcode.writeParam] at hw <;> omega
        by_cases him : modeOf ms k = .immediate
        · refine .inr (.inr (.inl ⟨hv, op, k, hop, hw, ?_, by simp [hd, ho, hw, him]⟩))
          rw [← hms k hk, him]; rfl
        · refine .inr (.inr (.inr ⟨hv, ⟨op, ms⟩, hop, fun k' hk' => ?_, hms, by simp [hd, ho, hw, him]⟩))
          obtain rfl : k = k' := by simpa [hw] using hk'
          rw [← hms k hk]
          exact fun h => him (digit_injective (m' := .immediate) h)
  · exact .inl ⟨hv, by simp [hd]⟩

/-! ### Instructions of a decoded word -/

theorem instr_opcode (h : Head) (param : Nat → Int) : (h.instr param).opcode = h.op := by
  unfold Head.instr; cases h.op <;> rfl

/-- The operands of the decoded instruction are its first `arity` parameters, each with its mode. -/
theorem instr_operands (h : Head) (param : Nat → Int) :
    (h.instr param).operands = (List.range h.op.arity).map (fun j => h.operand param (j + 1)) := by
  unfold Head.instr; cases h.op <;> rfl

theorem operands_length (i : Instr) : i.operands.length = i.opcode.arity := by cases i <;> rfl

/-- An instruction is its opcode and its operands. -/
theorem instr_ext {i j : Instr} (ho : i.opcode = j.opcode) (h : i.operands = j.operands) : i = j := by
  cases i <;> cases j <;> simp_all [Instr.opcode, Instr.operands]

theorem writable_iff (m : Mode) : m.writable = true ↔ m ≠ .immediate := by cases m <;> simp [Mode.writable]

/-- Well-formedness said through the table: the write target, if any, is not immediate. -/
theorem wellFormed_iff (i : Instr) : i.wellFormed = true ↔
    ∀ k o, i.opcode.writeParam = some k → i.operands[k - 1]? = some o → o.mode ≠ .immediate := by
  constructor
  · intro h k o hk ho
    cases i <;> first | (cases hk; cases ho; exact (writable_iff _).mp h) | cases hk
  · intro h
    cases i <;> first | exact (writable_iff _).mpr (h _ _ rfl rfl) | rfl

end Sys2Proof
end

