-- ==== Sys2Proof/Laws/State.lean ====
section
/-! SUPPORT. For every update of the state, one lemma per field, true by rfl: what the update makes of the field. No
later proof unfolds a record update. -/

namespace Sys2Proof.Machine

/-! ### The configuration's constants -/

@[simp] theorem unwritten_eq : Config.unwritten = 0 := rfl
@[simp] theorem entryPoint_eq : Config.entryPoint = 0 := rfl
@[simp] theorem initialBase_eq : Config.initialBase = 0 := rfl

variable (s : State)

/-! ### memWrite -/

@[simp] theorem memWrite_mem (a : Nat) (v : Int) : (s.memWrite a v).mem = s.mem.write a v := rfl
@[simp] theorem memWrite_ip (a : Nat) (v : Int) : (s.memWrite a v).ip = s.ip := rfl
@[simp] theorem memWrite_rb (a : Nat) (v : Int) : (s.memWrite a v).rb = s.rb := rfl
@[simp] theorem memWrite_inq (a : Nat) (v : Int) : (s.memWrite a v).inq = s.inq := rfl
@[simp] theorem memWrite_outq (a : Nat) (v : Int) : (s.memWrite a v).outq = s.outq := rfl
@[simp] theorem memWrite_terminated (a : Nat) (v : Int) : (s.memWrite a v).terminated = s.terminated := rfl
@[simp] theorem memWrite_defaultInput (a : Nat) (v : Int) : (s.memWrite a v).defaultInput = s.defaultInput := rfl
@[simp] theorem memWrite_fault (a : Nat) (v : Int) : (s.memWrite a v).fault = s.fault := rfl

/-! ### advance -/

@[simp] theorem advance_mem (n : Nat) : (s.advance n).mem = s.mem := rfl
@[simp] theorem advance_ip (n : Nat) : (s.advance n).ip = s.ip + n := rfl
@[simp] theorem advance_rb (n : Nat) : (s.advance n).rb = s.rb := rfl
@[simp] theorem advance_inq (n : Nat) : (s.advance n).inq = s.inq := rfl
@[simp] theorem advance_outq (n : Nat) : (s.advance n).outq = s.outq := rfl
@[simp] theorem advance_terminated (n : Nat) : (s.advance n).terminated = s.terminated := rfl
@[simp] theorem advance_defaultInput (n : Nat) : (s.advance n).defaultInput = s.defaultInput := rfl
@[simp] theorem advance_fault (n : Nat) : (s.advance n).fault = s.fault := rfl

/-! ### jumpTo -/

@[simp] theorem jumpTo_mem (t : Int) : (s.jumpTo t).mem = s.mem := rfl
@[simp] theorem jumpTo_ip (t : Int) : (s.jumpTo t).ip = t := rfl
@[simp] theorem jumpTo_rb (t : Int) : (s.jumpTo t).rb = s.rb := rfl
@[simp] theorem jumpTo_inq (t : Int) : (s.jumpTo t).inq = s.inq := rfl
@[simp] theorem jumpTo_outq (t : Int) : (s.jumpTo t).outq = s.outq := rfl
@[simp] theorem jumpTo_terminated (t : Int) : (s.jumpTo t).terminated = s.terminated := rfl
@[simp] theorem jumpTo_defaultInput (t : Int) : (s.jumpTo t).defaultInput = s.defaultInput := rfl
@[simp] theorem jumpTo_fault (t : Int) : (s.jumpTo t).fault = s.fault := rfl

/-! ### adjustBase -/

@[simp] theorem adjustBase_mem (v : Int) : (s.adjustBase v).mem = s.mem := rfl
@[simp] theorem adjustBase_ip (v : Int) : (s.adjustBase v).ip = s.ip := rfl
@[simp] theorem adjustBase_rb (v : Int) : (s.adjustBase v).rb = s.rb + v := rfl
@[simp] theorem adjustBase_inq (v : Int) : (s.adjustBase v).inq = s.inq := rfl
@[simp] theorem adjustBase_outq (v : Int) : (s.adjustBase v).outq = s.outq := rfl
@[simp] theorem adjustBase_terminated (v : Int) : (s.adjustBase v).terminated = s.terminated := rfl
@[simp] theorem adjustBase_defaultInput (v : Int) : (s.adjustBase v).defaultInput = s.defaultInput := rfl
@[simp] theorem adjustBase_fault (v : Int) : (s.adjustBase v).fault = s.fault := rfl

/-! ### pushInput -/

@[simp] theorem pushInput_mem (v : Int) : (s.pushInput v).mem = s.mem := rfl
@[simp] theorem pushInput_ip (v : Int) : (s.pushInput v).ip = s.ip := rfl
@[simp] theorem pushInput_rb (v : Int) : (s.pushInput v).rb = s.rb := rfl
@[simp] theorem pushInput_inq (v : Int) : (s.pushInput v).inq = s.inq ++ [v] := rfl
@[simp] theorem pushInput_outq (v : Int) : (s.pushInput v).outq = s.outq := rfl
@[simp] theorem pushInput_terminated (v : Int) : (s.pushInput v).terminated = s.terminated := rfl
@[simp] theorem pushInput_defaultInput (v : Int) : (s.pushInput v).defaultInput = s.defaultInput := rfl
@[simp] theorem pushInput_fault (v : Int) : (s.pushInput v).fault = s.fault := rfl

/-! ### pushOutput -/

@[simp] theorem pushOutput_mem (v : Int) : (s.pushOutput v).mem = s.mem := rfl
@[simp] theorem pushOutput_ip (v : Int) : (s.pushOutput v).ip = s.ip := rfl
@[simp] theorem pushOutput_rb (v : Int) : (s.pushOutput v).rb = s.rb := rfl
@[simp] theorem pushOutput_inq (v : Int) : (s.pushOutput v).inq = s.inq := rfl
@[simp] theorem pushOutput_outq (v : Int) : (s.pushOutput v).outq = s.outq ++ [v] := rfl
@[simp] theorem pushOutput_terminated (v : Int) : (s.pushOutput v).terminated = s.terminated := rfl
@[simp] theorem pushOutput_defaultInput (v : Int) : (s.pushOutput v).defaultInput = s.defaultInput := rfl
@[simp] theorem pushOutput_fault (v : Int) : (s.pushOutput v).fault = s.fault := rfl

/-! ### popOutput -/

@[simp] theorem popOutput_mem : (s.popOutput).mem = s.mem := rfl
@[simp] theorem popOutput_ip : (s.popOutput).ip = s.ip := rfl
@[simp] theorem popOutput_rb : (s.popOutput).rb = s.rb := rfl
@[simp] theorem popOutput_inq : (s.popOutput).inq = s.inq := rfl
@[simp] theorem popOutput_outq : (s.popOutput).outq = s.outq.dropLast := rfl
@[simp] theorem popOutput_terminated : (s.popOutput).terminated = s.terminated := rfl
@[simp] theorem popOutput_defaultInput : (s.popOutput).defaultInput = s.defaultInput := rfl
@[simp] theorem popOutput_fault : (s.popOutput).fault = s.fault := rfl

/-! ### latch -/

@[simp] theorem latch_mem (r : FaultRecord) : (s.latch r).mem = s.mem := rfl
@[simp] theorem latch_ip (r : FaultRecord) : (s.latch r).ip = s.ip := rfl
@[simp] theorem latch_rb (r : FaultRecord) : (s.latch r).rb = s.rb := rfl
@[simp] theorem latch_inq (r : FaultRecord) : (s.latch r).inq = s.inq := rfl
@[simp] theorem latch_outq (r : FaultRecord) : (s.latch r).outq = s.outq := rfl
@[simp] theorem latch_terminated (r : FaultRecord) : (s.latch r).terminated = s.terminated := rfl
@[simp] theorem latch_defaultInput (r : FaultRecord) : (s.latch r).defaultInput = s.defaultInput := rfl
@[simp] theorem latch_fault (r : FaultRecord) : (s.latch r).fault = some r := rfl

/-! ### terminate -/

@[simp] theorem terminate_mem : (s.terminate).mem = s.mem := rfl
@[simp] theorem terminate_ip : (s.terminate).ip = s.ip := rfl
@[simp] theorem terminate_rb : (s.terminate).rb = s.rb := rfl
@[simp] theorem terminate_inq : (s.terminate).inq = s.inq := rfl
@[simp] theorem terminate_outq : (s.terminate).outq = s.outq := rfl
@[simp] theorem terminate_terminated : (s.terminate).terminated = true := rfl
@[simp] theorem terminate_defaultInput : (s.terminate).defaultInput = s.defaultInput := rfl
@[simp] theorem terminate_fault : (s.terminate).fault = s.fault := rfl

/-! ### load -/

@[simp] theorem load_mem (program inputs : List Int) : (s.load program inputs).mem = Memory.image program := rfl
@[simp] theorem load_ip (program inputs : List Int) : (s.load program inputs).ip = 0 := rfl
@[simp] theorem load_rb (program inputs : List Int) : (s.load program inputs).rb = 0 := rfl
@[simp] theorem load_inq (program inputs : List Int) : (s.load program inputs).inq = inputs := rfl
@[simp] theorem load_outq (program inputs : List Int) : (s.load program inputs).outq = [] := rfl
@[simp] theorem load_terminated (program inputs : List Int) : (s.load program inputs).terminated = false := rfl
@[simp] theorem load_defaultInput (program inputs : List Int) : (s.load program inputs).defaultInput = s.defaultInput := rfl
@[simp] theorem load_fault (program inputs : List Int) : (s.load program inputs).fault = none := rfl

/-! ### setDefault -/

@[simp] theorem setDefault_mem (v : Int) : (s.setDefault v).mem = s.mem := rfl
@[simp] theorem setDefault_ip (v : Int) : (s.setDefault v).ip = s.ip := rfl
@[simp] theorem setDefault_rb (v : Int) : (s.setDefault v).rb = s.rb := rfl
@[simp] theorem setDefault_inq (v : Int) : (s.setDefault v).inq = s.inq := rfl
@[simp] theorem setDefault_outq (v : Int) : (s.setDefault v).outq = s.outq := rfl
@[simp] theorem setDefault_terminated (v : Int) : (s.setDefault v).terminated = s.terminated := rfl
@[simp] theorem setDefault_defaultInput (v : Int) : (s.setDefault v).defaultInput = some v := rfl
@[simp] theorem setDefault_fault (v : Int) : (s.setDefault v).fault = s.fault := rfl

/-! ### clearDefault -/

@[simp] theorem clearDefault_mem : (s.clearDefault).mem = s.mem := rfl
@[simp] theorem clearDefault_ip : (s.clearDefault).ip = s.ip := rfl
@[simp] theorem clearDefault_rb : (s.clearDefault).rb = s.rb := rfl
@[simp] theorem clearDefault_inq : (s.clearDefault).inq = s.inq := rfl
@[simp] theorem clearDefault_outq : (s.clearDefault).outq = s.outq := rfl
@[simp] theorem clearDefault_terminated : (s.clearDefault).terminated = s.terminated := rfl
@[simp] theorem clearDefault_defaultInput : (s.clearDefault).defaultInput = none := rfl
@[simp] theorem clearDefault_fault : (s.clearDefault).fault = s.fault := rfl

/-! ### clearOutputs -/

@[simp] theorem clearOutputs_mem : (s.clearOutputs).mem = s.mem := rfl
@[simp] theorem clearOutputs_ip : (s.clearOutputs).ip = s.ip := rfl
@[simp] theorem clearOutputs_rb : (s.clearOutputs).rb = s.rb := rfl
@[simp] theorem clearOutputs_inq : (s.clearOutputs).inq = s.inq := rfl
@[simp] theorem clearOutputs_outq : (s.clearOutputs).outq = [] := rfl
@[simp] theorem clearOutputs_terminated : (s.clearOutputs).terminated = s.terminated := rfl
@[simp] theorem clearOutputs_defaultInput : (s.clearOutputs).defaultInput = s.defaultInput := rfl
@[simp] theorem clearOutputs_fault : (s.clearOutputs).fault = s.fault := rfl

/-! ### reset -/

@[simp] theorem reset_mem : State.reset.mem = [] := rfl
@[simp] theorem reset_ip : State.reset.ip = 0 := rfl
@[simp] theorem reset_rb : State.reset.rb = 0 := rfl
@[simp] theorem reset_inq : State.reset.inq = [] := rfl
@[simp] theorem reset_outq : State.reset.outq = [] := rfl
@[simp] theorem reset_terminated : State.reset.terminated = false := rfl
@[simp] theorem reset_defaultInput : State.reset.defaultInput = none := rfl
@[simp] theorem reset_fault : State.reset.fault = none := rfl

end Sys2Proof.Machine
end

