-- ==== Sys2Proof/Laws/Memory.lean ====
section
/-! SUPPORT. The laws of memory: what a read gives after a write and in a loaded image, and that every memory operation
keeps the canonical form. -/

namespace Sys2Proof.Machine

namespace Memory

@[simp] theorem read_nil (a : Nat) : read [] a = 0 := rfl

theorem read_erase (m : Memory) (a b : Nat) :
    read (erase m a) b = if b = a then 0 else read m b := by
  induction m with
  | nil => simp [erase]
  | cons c m ih =>
    obtain ⟨k, w⟩ := c
    unfold erase at ih ⊢
    by_cases hk : k = a
    · subst hk
      simp only [List.filter_cons, ne_eq, not_true_eq_false, decide_false, Bool.false_eq_true, if_false, ih]
      by_cases hb : b = k
      · simp [hb]
      · simp [hb, read, Ne.symm hb]
    · simp only [List.filter_cons, ne_eq, hk, not_false_eq_true, decide_true, if_true, read, ih]
      by_cases hb : k = b
      · subst hb; simp [hk]
      · simp [hb]

theorem read_insert_of_absent (m : Memory) (a b : Nat) (v : Int) (h : ∀ c ∈ m, c.1 ≠ a) :
    read (insert m a v) b = if b = a then v else read m b := by
  induction m with
  | nil => by_cases hb : a = b <;> simp [insert, read, hb, Config.unwritten, eq_comm]
  | cons c m ih =>
    obtain ⟨k, w⟩ := c
    have hk : k ≠ a := h (k, w) (by simp)
    have ih := ih (fun c hc => h c (by simp [hc]))
    unfold insert
    split
    · by_cases hb : a = b
      · simp [read, hb]
      · simp [read, hb, Ne.symm hb]
    · by_cases hb : k = b
      · subst hb; simp [read, hk]
      · simp [read, hb, ih]

theorem absent_erase (m : Memory) (a : Nat) : ∀ c ∈ erase m a, c.1 ≠ a := by
  intro c hc
  simpa using (List.mem_filter.mp hc).2

/-- A read after a write (20_memory.md R33). It needs no canonical form. -/
theorem read_write (m : Memory) (a b : Nat) (v : Int) :
    read (write m a v) b = if b = a then v else read m b := by
  unfold write
  split
  · next h => rw [read_erase, h]; rfl
  · rw [read_insert_of_absent _ _ _ _ (absent_erase m a), read_erase]
    by_cases hb : b = a <;> simp [hb]

@[simp] theorem read_write_same (m : Memory) (a : Nat) (v : Int) : read (write m a v) a = v := by
  simp [read_write]

@[simp] theorem read_write_other (m : Memory) {a b : Nat} (v : Int) (h : b ≠ a) :
    read (write m a v) b = read m b := by
  simp [read_write, h]

/-! ### The canonical form -/

@[simp] theorem wf_nil : Memory.wf [] := by decide

theorem wf_erase {m : Memory} (h : m.wf) (a : Nat) : (erase m a).wf :=
  ⟨h.1.filter _, fun c hc => h.2 c (List.mem_filter.mp hc).1⟩

theorem mem_insert {m : Memory} {a : Nat} {v : Int} {c : Nat × Int} :
    c ∈ insert m a v ↔ c = (a, v) ∨ c ∈ m := by
  induction m with
  | nil => simp [insert]
  | cons d m ih =>
    unfold insert
    split
    · simp
    · rw [List.mem_cons, ih, List.mem_cons]; tauto

theorem wf_insert {m : Memory} (h : m.wf) {a : Nat} {v : Int} (hv : v ≠ Config.unwritten)
    (ha : ∀ c ∈ m, c.1 ≠ a) : (insert m a v).wf := by
  refine ⟨?_, fun c hc => ?_⟩
  · have hp := h.1
    clear h
    induction m with
    | nil => simp [insert]
    | cons d m ih =>
      rw [List.pairwise_cons] at hp
      unfold insert
      split
      · next hlt =>
        refine List.pairwise_cons.mpr ⟨fun c hc => ?_, List.pairwise_cons.mpr hp⟩
        rcases List.mem_cons.mp hc with rfl | hc
        · exact hlt
        · exact lt_trans hlt (hp.1 c hc)
      · next hlt =>
        refine List.pairwise_cons.mpr ⟨fun c hc => ?_, ih (fun c hc => ha c (by simp [hc])) hp.2⟩
        rcases mem_insert.mp hc with rfl | hc
        · exact lt_of_le_of_ne (Nat.le_of_not_lt hlt) (ha d (by simp))
        · exact hp.1 c hc
  · rcases mem_insert.mp hc with rfl | hc
    · exact hv
    · exact h.2 c hc

/-- A write keeps the canonical form. -/
theorem wf_write {m : Memory} (h : m.wf) (a : Nat) (v : Int) : (write m a v).wf := by
  unfold write
  split
  · exact wf_erase h a
  · next hv => exact wf_insert (wf_erase h a) hv (absent_erase m a)

/-! ### The loaded image -/

theorem le_of_mem_imageFrom {vs : List Int} {a : Nat} {c : Nat × Int}
    (h : c ∈ imageFrom a vs) : a ≤ c.1 ∧ c.2 ≠ Config.unwritten := by
  induction vs generalizing a with
  | nil => simp [imageFrom] at h
  | cons v vs ih =>
    unfold imageFrom at h
    split at h
    · exact ⟨Nat.le_of_succ_le (ih h).1, (ih h).2⟩
    · next hv =>
      rcases List.mem_cons.mp h with rfl | h
      · exact ⟨le_refl _, hv⟩
      · exact ⟨Nat.le_of_succ_le (ih h).1, (ih h).2⟩

theorem wf_imageFrom (vs : List Int) (a : Nat) : (imageFrom a vs).wf := by
  refine ⟨?_, fun c hc => (le_of_mem_imageFrom hc).2⟩
  induction vs generalizing a with
  | nil => simp [imageFrom]
  | cons v vs ih =>
    unfold imageFrom
    split
    · exact ih (a + 1)
    · exact List.pairwise_cons.mpr ⟨fun c hc => (le_of_mem_imageFrom hc).1, ih (a + 1)⟩

theorem wf_image (program : List Int) : (image program).wf := wf_imageFrom program 0

theorem read_imageFrom (vs : List Int) (a b : Nat) :
    read (imageFrom a vs) b = if a ≤ b then vs.getD (b - a) 0 else 0 := by
  induction vs generalizing a with
  | nil => simp [imageFrom]
  | cons v vs ih =>
    have tail : b ≠ a → read (imageFrom (a + 1) vs) b = if a ≤ b then (v :: vs).getD (b - a) 0 else 0 := by
      intro hb
      rw [ih]
      by_cases hab : a ≤ b
      · obtain ⟨k, rfl⟩ : ∃ k, b = a + 1 + k := ⟨b - (a + 1), by omega⟩
        have h1 : a + 1 + k - (a + 1) = k := by omega
        have h2 : a + 1 + k - a = k + 1 := by omega
        simp [h1, h2, show a ≤ a + 1 + k by omega]
      · simp [hab, show ¬ (a + 1 ≤ b) by omega]
    unfold imageFrom
    split
    · next hv =>
      by_cases hb : b = a
      · subst hb
        rw [ih]
        simp [hv, Config.unwritten]
      · exact tail hb
    · by_cases hb : a = b
      · subst hb; simp [read]
      · simpa [read, hb] using tail (Ne.symm hb)

end Memory

/-- Every update of memory in the machine keeps the canonical form. -/
theorem memWrite_wf {s : State} (h : s.mem.wf) (a : Nat) (v : Int) : (s.memWrite a v).mem.wf :=
  Memory.wf_write h a v

theorem load_wf (s : State) (program inputs : List Int) : (s.load program inputs).mem.wf :=
  Memory.wf_image program

end Sys2Proof.Machine
end

