-- ==== Sys2Proof/Laws/Operands.lean ====
section
/-! SUPPORT. Everything the operand resolver can answer, said once in the claims' own terms (`Reads`, `Targets`,
`NegativeAt`): later proofs cite these and never unfold `val`, `addr` or the resolving shapes. -/

namespace Sys2Proof.Machine

variable {s : State} {o a b d : Operand} {k : Nat}

/-! ### effective and source -/

theorem reads_iff {x : Int} : Reads s o x ↔
    (s.effective o = none ∧ x = o.param) ∨ ∃ e, s.effective o = some e ∧ 0 ≤ e ∧ x = s.mem.read e.toNat := by
  unfold Reads State.source
  cases h : s.effective o with
  | none => simp [eq_comm]
  | some e =>
    by_cases he : e < 0
    · simp [he]
    · simp [not_lt.mp he, eq_comm, he]

theorem effective_eq_none : s.effective o = none ↔ o.mode = .immediate := by
  unfold State.effective; cases o.mode <;> simp

/-- A source can be read, or it forms a negative address. -/
theorem reads_or_negative (s : State) (o : Operand) : (∃ x, Reads s o x) ∨ ∃ e, NegativeAt s o e := by
  unfold Reads NegativeAt State.source
  cases h : s.effective o with
  | none => simp
  | some e => by_cases he : e < 0 <;> simp [he]

theorem Reads.not_negative {x e : Int} (h : Reads s o x) : ¬ NegativeAt s o e := by
  rintro ⟨he, hneg⟩
  simp [Reads, State.source, he, hneg] at h

/-- A write target is immediate, names a cell, or forms a negative address. -/
theorem target_cases (s : State) (o : Operand) :
    o.mode = .immediate ∨ (∃ n, Targets s o n) ∨ ∃ e, NegativeAt s o e := by
  unfold Targets NegativeAt
  cases h : s.effective o with
  | none => exact .inl (effective_eq_none.mp h)
  | some e =>
    by_cases he : e < 0
    · exact .inr (.inr ⟨e, rfl, he⟩)
    · exact .inr (.inl ⟨e.toNat, by simp [not_lt.mp he]⟩)

theorem Targets.not_immediate {n : Nat} (h : Targets s o n) : o.mode ≠ .immediate := by
  intro hm
  rw [Targets, effective_eq_none.mpr hm] at h
  cases h

theorem Targets.not_negative {n : Nat} {e : Int} (h : Targets s o n) : ¬ NegativeAt s o e := by
  rintro ⟨he, hneg⟩
  rw [Targets, he] at h
  obtain rfl : e = n := by simpa using h
  omega

theorem NegativeAt.not_immediate {e : Int} (h : NegativeAt s o e) : o.mode ≠ .immediate := by
  intro hm
  have := h.1
  rw [effective_eq_none.mpr hm] at this
  cases this

/-! ### val and addr -/

theorem val_eq (k : Nat) (o : Operand) (s : State) : val k o s =
    match s.effective o with
    | none => .ok o.param
    | some e => if e < 0 then .error (s.readError k e) else .ok (s.mem.read e.toNat) := by
  unfold val State.effective memRead
  cases o.mode <;> rfl

theorem addr_eq (k : Nat) (o : Operand) (s : State) : addr k o s =
    match s.effective o with
    | none => .error (s.targetError k)
    | some e => if e < 0 then .error (s.writeError k e) else .ok e.toNat := by
  unfold addr State.effective writeAddress
  cases o.mode <;> rfl

theorem val_of_reads {x : Int} (h : Reads s o x) : val k o s = .ok x := by
  rw [val_eq]
  rcases reads_iff.mp h with ⟨he, rfl⟩ | ⟨e, he, hnn, rfl⟩
  · simp [he]
  · simp [he, not_lt.mpr hnn]

theorem val_of_negative {e : Int} (h : NegativeAt s o e) : val k o s = .error (s.readError k e) := by
  rw [val_eq, h.1]; simp [h.2]

theorem addr_of_targets {n : Nat} (h : Targets s o n) : addr k o s = .ok n := by
  rw [addr_eq, h]; simp

theorem addr_of_negative {e : Int} (h : NegativeAt s o e) : addr k o s = .error (s.writeError k e) := by
  rw [addr_eq, h.1]; simp [h.2]

theorem addr_of_immediate (h : o.mode = .immediate) : addr k o s = .error (s.targetError k) := by
  rw [addr_eq, effective_eq_none.mpr h]

/-- What `val` can answer. -/
theorem val_cases (k : Nat) (o : Operand) (s : State) :
    (∃ x, Reads s o x ∧ val k o s = .ok x) ∨ ∃ e, NegativeAt s o e ∧ val k o s = .error (s.readError k e) := by
  rcases reads_or_negative s o with ⟨x, h⟩ | ⟨e, h⟩
  · exact .inl ⟨x, h, val_of_reads h⟩
  · exact .inr ⟨e, h, val_of_negative h⟩

theorem val_ok_iff {x : Int} : val k o s = .ok x ↔ Reads s o x := by
  refine ⟨fun h => ?_, val_of_reads⟩
  rcases val_cases k o s with ⟨y, hy, hv⟩ | ⟨e, _, hv⟩
  · rw [hv] at h; cases h; exact hy
  · rw [hv] at h; cases h

theorem addr_ok_iff {n : Nat} : addr k o s = .ok n ↔ Targets s o n := by
  refine ⟨fun h => ?_, addr_of_targets⟩
  rcases target_cases s o with hm | ⟨m, hm⟩ | ⟨e, hm⟩
  · rw [addr_of_immediate hm] at h; cases h
  · rw [addr_of_targets hm] at h; cases h; exact hm
  · rw [addr_of_negative hm] at h; cases h

theorem checkTarget_of_immediate (h : o.mode = .immediate) : checkTarget k o s = .error (s.targetError k) := by
  simp [checkTarget, h]

theorem checkTarget_of_not_immediate (h : o.mode ≠ .immediate) : checkTarget k o s = .ok () := by
  simp [checkTarget, h]

/-! ### The resolving shapes -/

@[simp] theorem ok_bind {ε α β : Type} (x : α) (f : α → Except ε β) : (Except.ok x >>= f) = f x := rfl
@[simp] theorem error_bind {ε α β : Type} (r : ε) (f : α → Except ε β) :
    ((Except.error r : Except ε α) >>= f) = .error r := rfl
@[simp] theorem pure_eq_ok {ε α : Type} (x : α) : (pure x : Except ε α) = .ok x := rfl

/-- What resolving two sources and a target can answer, in the order in which faults are reported. -/
theorem resolveStore_cases (a b d : Operand) (s : State) :
    (∃ x y n, Reads s a x ∧ Reads s b y ∧ Targets s d n ∧ resolveStore a b d s = .ok (x, y, n)) ∨
    (d.mode = .immediate ∧ resolveStore a b d s = .error (s.targetError 3)) ∨
    (d.mode ≠ .immediate ∧ ∃ e, NegativeAt s a e ∧ resolveStore a b d s = .error (s.readError 1 e)) ∨
    (d.mode ≠ .immediate ∧ ∃ x e, Reads s a x ∧ NegativeAt s b e ∧
      resolveStore a b d s = .error (s.readError 2 e)) ∨
    (∃ x y e, Reads s a x ∧ Reads s b y ∧ NegativeAt s d e ∧
      resolveStore a b d s = .error (s.writeError 3 e)) := by
  unfold resolveStore
  rcases target_cases s d with hm | hd
  · exact .inr (.inl ⟨hm, by simp [checkTarget_of_immediate hm]⟩)
  · have hm : d.mode ≠ .immediate := by
      rcases hd with ⟨n, h⟩ | ⟨e, h⟩
      · exact h.not_immediate
      · exact h.not_immediate
    rcases val_cases 1 a s with ⟨x, hx, hvx⟩ | ⟨e, he, hve⟩
    · rcases val_cases 2 b s with ⟨y, hy, hvy⟩ | ⟨e, he, hve⟩
      · rcases hd with ⟨n, hn⟩ | ⟨e, he⟩
        · exact .inl ⟨x, y, n, hx, hy, hn,
            by simp [checkTarget_of_not_immediate hm, hvx, hvy, addr_of_targets hn]⟩
        · exact .inr (.inr (.inr (.inr ⟨x, y, e, hx, hy, he,
            by simp [checkTarget_of_not_immediate hm, hvx, hvy, addr_of_negative he]⟩)))
      · exact .inr (.inr (.inr (.inl ⟨hm, x, e, hx, he,
          by simp [checkTarget_of_not_immediate hm, hvx, hve]⟩)))
    · exact .inr (.inr (.inl ⟨hm, e, he, by simp [checkTarget_of_not_immediate hm, hve]⟩))

theorem resolveStore_of_reads {x y : Int} {n : Nat} (ha : Reads s a x) (hb : Reads s b y) (hd : Targets s d n) :
    resolveStore a b d s = .ok (x, y, n) := by
  simp [resolveStore, checkTarget_of_not_immediate hd.not_immediate, val_of_reads ha, val_of_reads hb,
    addr_of_targets hd]

/-- What resolving two sources can answer. -/
theorem resolvePair_cases (a b : Operand) (s : State) :
    (∃ x y, Reads s a x ∧ Reads s b y ∧ resolvePair a b s = .ok (x, y)) ∨
    (∃ e, NegativeAt s a e ∧ resolvePair a b s = .error (s.readError 1 e)) ∨
    (∃ x e, Reads s a x ∧ NegativeAt s b e ∧ resolvePair a b s = .error (s.readError 2 e)) := by
  unfold resolvePair
  rcases val_cases 1 a s with ⟨x, hx, hvx⟩ | ⟨e, he, hve⟩
  · rcases val_cases 2 b s with ⟨y, hy, hvy⟩ | ⟨e, he, hve⟩
    · exact .inl ⟨x, y, hx, hy, by simp [hvx, hvy]⟩
    · exact .inr (.inr ⟨x, e, hx, he, by simp [hvx, hve]⟩)
  · exact .inr (.inl ⟨e, he, by simp [hve]⟩)

theorem resolvePair_of_reads {x y : Int} (ha : Reads s a x) (hb : Reads s b y) :
    resolvePair a b s = .ok (x, y) := by
  simp [resolvePair, val_of_reads ha, val_of_reads hb]

/-- What resolving one write target can answer. -/
theorem resolveTarget_cases (d : Operand) (s : State) :
    (∃ n, Targets s d n ∧ resolveTarget d s = .ok n) ∨
    (d.mode = .immediate ∧ resolveTarget d s = .error (s.targetError 1)) ∨
    (∃ e, NegativeAt s d e ∧ resolveTarget d s = .error (s.writeError 1 e)) := by
  unfold resolveTarget
  rcases target_cases s d with hm | ⟨n, hn⟩ | ⟨e, he⟩
  · exact .inr (.inl ⟨hm, by simp [checkTarget_of_immediate hm]⟩)
  · exact .inl ⟨n, hn, by simp [checkTarget_of_not_immediate hn.not_immediate, addr_of_targets hn]⟩
  · exact .inr (.inr ⟨e, he, by simp [checkTarget_of_not_immediate he.not_immediate, addr_of_negative he]⟩)

theorem resolveTarget_of_targets {n : Nat} (hd : Targets s d n) : resolveTarget d s = .ok n := by
  simp [resolveTarget, checkTarget_of_not_immediate hd.not_immediate, addr_of_targets hd]

/-- What taking an input can answer. -/
theorem popOrDefault_cases (s : State) :
    (∃ v rest, s.inq = v :: rest ∧ popOrDefault s = .ok (v, { s with inq := rest })) ∨
    (∃ v, s.inq = [] ∧ s.defaultInput = some v ∧ popOrDefault s = .ok (v, s)) ∨
    (s.inq = [] ∧ s.defaultInput = none ∧ popOrDefault s = .error s.inputError) := by
  unfold popOrDefault
  cases hq : s.inq with
  | cons v rest => exact .inl ⟨v, rest, rfl, by simp⟩
  | nil =>
    cases hd : s.defaultInput with
    | some v => exact .inr (.inl ⟨v, rfl, rfl, by simp⟩)
    | none => exact .inr (.inr ⟨rfl, rfl, by simp⟩)

end Sys2Proof.Machine
end

