-- ==== Sys2Proof/Laws/Exec.lean ====
section
/-! SUPPORT. Said once: everything an instruction can do (`exec_cases`: its own effect, the raising of a latched fault,
or a missing input), and everything a step can do (`step_cases`). Frames and invariants are derived from these and never
unfold `exec` or `step`. -/

namespace Sys2Proof.Machine

variable {s t : State} {i : Instr} {r : FaultRecord}

/-! ### Raising -/

theorem raise_of_latched (h : r.cause.isLatched = true) : raise r s = .next (s.latch r) := by
  simp [raise, h]

@[simp] theorem raise_fetchError (s : State) : raise s.fetchError s = .next (s.latch s.fetchError) := rfl
@[simp] theorem raise_readError (s : State) (k : Nat) (e : Int) :
    raise (s.readError k e) s = .next (s.latch (s.readError k e)) := rfl
@[simp] theorem raise_writeError (s : State) (k : Nat) (e : Int) :
    raise (s.writeError k e) s = .next (s.latch (s.writeError k e)) := rfl
@[simp] theorem raise_targetError (s : State) (k : Nat) :
    raise (s.targetError k) s = .next (s.latch (s.targetError k)) := rfl
@[simp] theorem raise_inputError (s : State) : raise s.inputError s = .fault (.missingInput s.inputError) := rfl
@[simp] theorem raise_decodeError (s : State) (e : DecodeFault) :
    raise (s.decodeError e) s = .next (s.latch (s.decodeError e)) := by cases e <;> rfl

theorem isLatched_decodeError (s : State) (e : DecodeFault) : (s.decodeError e).cause.isLatched = true := by
  cases e <;> rfl

theorem speaksOf_record (s : State) (c : Cause) (sub : Option Subcause) (e : Option Int) (k : Option Nat) :
    (s.record c sub e k).speaksOf s := ⟨rfl, rfl⟩

theorem speaksOf_decodeError (s : State) (e : DecodeFault) : (s.decodeError e).speaksOf s := by
  cases e <;> exact ⟨rfl, rfl⟩

@[simp] theorem settle_ok (s t : State) : settle s (.ok t) = .next t := rfl
@[simp] theorem settle_error (s : State) (r : FaultRecord) : settle s (.error r) = raise r s := rfl

/-! ### What an instruction does -/

/-- `Effect i s t`: instruction `i` has its own effect in `s` and it gives `t` (the rules R80 to R103). -/
inductive Effect : Instr → State → State → Prop
  | add {s : State} {a b d : Operand} {x y : Int} {n : Nat} : Reads s a x → Reads s b y → Targets s d n →
      Effect (.add a b d) s ((s.memWrite n (x + y)).advance 4)
  | mul {s : State} {a b d : Operand} {x y : Int} {n : Nat} : Reads s a x → Reads s b y → Targets s d n →
      Effect (.mul a b d) s ((s.memWrite n (x * y)).advance 4)
  | lt {s : State} {a b d : Operand} {x y : Int} {n : Nat} : Reads s a x → Reads s b y → Targets s d n →
      Effect (.lt a b d) s ((s.memWrite n (truth (decide (x < y)))).advance 4)
  | eq {s : State} {a b d : Operand} {x y : Int} {n : Nat} : Reads s a x → Reads s b y → Targets s d n →
      Effect (.eq a b d) s ((s.memWrite n (truth (decide (x = y)))).advance 4)
  | inpQueue {s : State} {d : Operand} {n : Nat} {v : Int} {rest : List Int} : Targets s d n → s.inq = v :: rest →
      Effect (.inp d) s ((State.memWrite { s with inq := rest } n v).advance 2)
  | inpDefault {s : State} {d : Operand} {n : Nat} {v : Int} : Targets s d n → s.inq = [] →
      s.defaultInput = some v → Effect (.inp d) s ((s.memWrite n v).advance 2)
  | out {s : State} {a : Operand} {x : Int} : Reads s a x → Effect (.out a) s ((s.pushOutput x).advance 2)
  | jnzTaken {s : State} {c g : Operand} {x y : Int} : Reads s c x → Reads s g y → x ≠ 0 →
      Effect (.jnz c g) s (s.jumpTo y)
  | jnzNotTaken {s : State} {c g : Operand} {y : Int} : Reads s c 0 → Reads s g y →
      Effect (.jnz c g) s (s.advance 3)
  | jzTaken {s : State} {c g : Operand} {y : Int} : Reads s c 0 → Reads s g y →
      Effect (.jz c g) s (s.jumpTo y)
  | jzNotTaken {s : State} {c g : Operand} {x y : Int} : Reads s c x → Reads s g y → x ≠ 0 →
      Effect (.jz c g) s (s.advance 3)
  | arb {s : State} {a : Operand} {x : Int} : Reads s a x → Effect (.arb a) s ((s.adjustBase x).advance 2)
  | hlt {s : State} : Effect .hlt s (s.terminate.advance 1)

/-- `Raises i s r`: `r` is the record of a fault that gives instruction `i` cause in `s`, for a reason other than a
missing input: an immediate write target, or a parameter whose address is negative. -/
inductive Raises : Instr → State → FaultRecord → Prop
  | target {i : Instr} {s : State} {k : Nat} {o : Operand} : i.opcode.writeParam = some k →
      i.operands[k - 1]? = some o → o.mode = .immediate → Raises i s (s.targetError k)
  | write {i : Instr} {s : State} {k : Nat} {o : Operand} {e : Int} : i.opcode.writeParam = some k →
      i.operands[k - 1]? = some o → NegativeAt s o e → Raises i s (s.writeError k e)
  | read {i : Instr} {s : State} {k : Nat} {o : Operand} {e : Int} : i.opcode.writeParam ≠ some k → 1 ≤ k →
      i.operands[k - 1]? = some o → NegativeAt s o e → Raises i s (s.readError k e)

theorem Raises.isLatched (h : Raises i s r) : r.cause.isLatched = true := by cases h <;> rfl

theorem Raises.speaksOf (h : Raises i s r) : r.speaksOf s := by cases h <;> exact ⟨rfl, rfl⟩

/-- What an instruction leaves of the elements that only the host, or only a fault, writes. -/
theorem Effect.defaultInput (h : Effect i s t) : t.defaultInput = s.defaultInput := by cases h <;> rfl

theorem Effect.fault (h : Effect i s t) : t.fault = s.fault := by cases h <;> rfl

/-- An effect keeps memory canonical. -/
theorem Effect.wf (h : Effect i s t) (hs : s.mem.wf) : t.mem.wf := by
  cases h with
  | add => exact Memory.wf_write hs _ _
  | mul => exact Memory.wf_write hs _ _
  | lt => exact Memory.wf_write hs _ _
  | eq => exact Memory.wf_write hs _ _
  | inpQueue => exact Memory.wf_write hs _ _
  | inpDefault => exact Memory.wf_write hs _ _
  | _ => exact hs

/-! ### The shapes of meanings -/

theorem storeResult_of_reads {f : Int → Int → Int} {a b d : Operand} {x y : Int} {n : Nat} (ha : Reads s a x)
    (hb : Reads s b y) (hd : Targets s d n) :
    storeResult f a b d s = .next ((s.memWrite n (f x y)).advance 4) := by
  simp [storeResult, resolveStore_of_reads ha hb hd]

theorem storeResult_cases (f : Int → Int → Int) (a b d : Operand) (s : State) :
    (∃ x y n, Reads s a x ∧ Reads s b y ∧ Targets s d n ∧
      storeResult f a b d s = .next ((s.memWrite n (f x y)).advance 4)) ∨
    (d.mode = .immediate ∧ storeResult f a b d s = .next (s.latch (s.targetError 3))) ∨
    (d.mode ≠ .immediate ∧ ∃ e, NegativeAt s a e ∧ storeResult f a b d s = .next (s.latch (s.readError 1 e))) ∨
    (d.mode ≠ .immediate ∧ ∃ x e, Reads s a x ∧ NegativeAt s b e ∧
      storeResult f a b d s = .next (s.latch (s.readError 2 e))) ∨
    (∃ x y e, Reads s a x ∧ Reads s b y ∧ NegativeAt s d e ∧
      storeResult f a b d s = .next (s.latch (s.writeError 3 e))) := by
  unfold storeResult
  rcases resolveStore_cases a b d s with ⟨x, y, n, ha, hb, hd, h⟩ | ⟨hm, h⟩ | ⟨hm, e, he, h⟩ |
      ⟨hm, x, e, hx, he, h⟩ | ⟨x, y, e, hx, hy, he, h⟩
  · exact .inl ⟨x, y, n, ha, hb, hd, by simp [h]⟩
  · exact .inr (.inl ⟨hm, by simp [h]⟩)
  · exact .inr (.inr (.inl ⟨hm, e, he, by simp [h]⟩))
  · exact .inr (.inr (.inr (.inl ⟨hm, x, e, hx, he, by simp [h]⟩)))
  · exact .inr (.inr (.inr (.inr ⟨x, y, e, hx, hy, he, by simp [h]⟩)))

theorem jumpWhen_of_reads {p : Int → Bool} {c g : Operand} {x y : Int} (hc : Reads s c x) (hg : Reads s g y) :
    jumpWhen p c g s = .next (if p x then s.jumpTo y else s.advance 3) := by
  simp [jumpWhen, resolvePair_of_reads hc hg]

theorem jumpWhen_cases (p : Int → Bool) (c g : Operand) (s : State) :
    (∃ x y, Reads s c x ∧ Reads s g y ∧
      jumpWhen p c g s = .next (if p x then s.jumpTo y else s.advance 3)) ∨
    (∃ e, NegativeAt s c e ∧ jumpWhen p c g s = .next (s.latch (s.readError 1 e))) ∨
    (∃ x e, Reads s c x ∧ NegativeAt s g e ∧ jumpWhen p c g s = .next (s.latch (s.readError 2 e))) := by
  unfold jumpWhen
  rcases resolvePair_cases c g s with ⟨x, y, hx, hy, h⟩ | ⟨e, he, h⟩ | ⟨x, e, hx, he, h⟩
  · exact .inl ⟨x, y, hx, hy, by simp [h]⟩
  · exact .inr (.inl ⟨e, he, by simp [h]⟩)
  · exact .inr (.inr ⟨x, e, hx, he, by simp [h]⟩)

/-! ### What exec can answer -/

/-- An instruction that stores a function of two sources: its effect, or a latched fault. -/
theorem store_exec_cases {f : Int → Int → Int} {a b d : Operand} {s : State} (i : Instr)
    (hi : exec i s = storeResult f a b d s) (hops : i.operands = [a, b, d]) (hw : i.opcode.writeParam = some 3)
    (heff : ∀ x y n, Reads s a x → Reads s b y → Targets s d n →
      Effect i s ((s.memWrite n (f x y)).advance 4)) :
    (∃ t, Effect i s t ∧ exec i s = .next t) ∨ ∃ r, Raises i s r ∧ exec i s = .next (s.latch r) := by
  rcases storeResult_cases f a b d s with ⟨x, y, n, ha, hb, hd, h⟩ | ⟨hm, h⟩ | ⟨hm, e, he, h⟩ |
      ⟨hm, x, e, hx, he, h⟩ | ⟨x, y, e, hx, hy, he, h⟩
  · exact .inl ⟨_, heff x y n ha hb hd, hi.trans h⟩
  · exact .inr ⟨_, .target hw (by simp [hops]) hm, hi.trans h⟩
  · exact .inr ⟨_, .read (by simp [hw]) (by simp) (by simp [hops]) he, hi.trans h⟩
  · exact .inr ⟨_, .read (by simp [hw]) (by simp) (by simp [hops]) he, hi.trans h⟩
  · exact .inr ⟨_, .write hw (by simp [hops]) he, hi.trans h⟩

/-- A conditional jump: its effect, or a latched fault. -/
theorem jump_exec_cases {p : Int → Bool} {c g : Operand} {s : State} (i : Instr)
    (hi : exec i s = jumpWhen p c g s) (hops : i.operands = [c, g]) (hw : i.opcode.writeParam = none)
    (heff : ∀ x y, Reads s c x → Reads s g y → Effect i s (if p x then s.jumpTo y else s.advance 3)) :
    (∃ t, Effect i s t ∧ exec i s = .next t) ∨ ∃ r, Raises i s r ∧ exec i s = .next (s.latch r) := by
  rcases jumpWhen_cases p c g s with ⟨x, y, hx, hy, h⟩ | ⟨e, he, h⟩ | ⟨x, e, hx, he, h⟩
  · exact .inl ⟨_, heff x y hx hy, hi.trans h⟩
  · exact .inr ⟨_, .read (by simp [hw]) (by simp) (by simp [hops]) he, hi.trans h⟩
  · exact .inr ⟨_, .read (by simp [hw]) (by simp) (by simp [hops]) he, hi.trans h⟩

/-- An instruction whose one operand is a source. -/
theorem unary_exec_cases {f : Int → State} {a : Operand} {s : State} (i : Instr)
    (hi : exec i s = settle s (do let v ← val 1 a s; pure (f v))) (hops : i.operands = [a])
    (hw : i.opcode.writeParam = none) (heff : ∀ x, Reads s a x → Effect i s (f x)) :
    (∃ t, Effect i s t ∧ exec i s = .next t) ∨ ∃ r, Raises i s r ∧ exec i s = .next (s.latch r) := by
  rcases val_cases 1 a s with ⟨x, hx, hv⟩ | ⟨e, he, hv⟩
  · exact .inl ⟨_, heff x hx, by simp [hi, hv]⟩
  · exact .inr ⟨_, .read (k := 1) (by simp [hw]) le_rfl (by simp [hops]) he, by simp [hi, hv]⟩

/-- IN: its effect, a latched fault, or a missing input. -/
theorem inp_exec_cases (d : Operand) (s : State) :
    (∃ t, Effect (.inp d) s t ∧ exec (.inp d) s = .next t) ∨
    (∃ r, Raises (.inp d) s r ∧ exec (.inp d) s = .next (s.latch r)) ∨
    (s.inq = [] ∧ s.defaultInput = none ∧ (∃ n, Targets s d n) ∧
      exec (.inp d) s = .fault (.missingInput s.inputError)) := by
  have hi : exec (.inp d) s = execInp d s := rfl
  rw [hi]
  unfold execInp
  rcases resolveTarget_cases d s with ⟨n, hn, h⟩ | ⟨hm, h⟩ | ⟨e, he, h⟩
  · rcases popOrDefault_cases s with ⟨v, rest, hq, hp⟩ | ⟨v, hq, hd, hp⟩ | ⟨hq, hd, hp⟩
    · exact .inl ⟨_, .inpQueue hn hq, by simp [h, hp]⟩
    · exact .inl ⟨_, .inpDefault hn hq hd, by simp [h, hp]⟩
    · exact .inr (.inr ⟨hq, hd, ⟨n, hn⟩, by simp [h, hp]⟩)
  · exact .inr (.inl ⟨_, .target rfl rfl hm, by simp [h]⟩)
  · exact .inr (.inl ⟨_, .write rfl rfl he, by simp [h]⟩)

/-- Everything an instruction can do. -/
theorem exec_cases (i : Instr) (s : State) :
    (∃ t, Effect i s t ∧ exec i s = .next t) ∨
    (∃ r, Raises i s r ∧ exec i s = .next (s.latch r)) ∨
    (∃ d, i = .inp d ∧ s.inq = [] ∧ s.defaultInput = none ∧ (∃ n, Targets s d n) ∧
      exec i s = .fault (.missingInput s.inputError)) := by
  have lift : ((∃ t, Effect i s t ∧ exec i s = .next t) ∨ ∃ r, Raises i s r ∧ exec i s = .next (s.latch r)) →
      (∃ t, Effect i s t ∧ exec i s = .next t) ∨
      (∃ r, Raises i s r ∧ exec i s = .next (s.latch r)) ∨
      (∃ d, i = .inp d ∧ s.inq = [] ∧ s.defaultInput = none ∧ (∃ n, Targets s d n) ∧
        exec i s = .fault (.missingInput s.inputError)) := fun h => h.imp_right .inl
  cases i with
  | add a b d => exact lift (store_exec_cases _ rfl rfl rfl (fun _ _ _ => .add))
  | mul a b d => exact lift (store_exec_cases _ rfl rfl rfl (fun _ _ _ => .mul))
  | lt a b d => exact lift (store_exec_cases _ rfl rfl rfl (fun _ _ _ => .lt))
  | eq a b d => exact lift (store_exec_cases _ rfl rfl rfl (fun _ _ _ => .eq))
  | inp d =>
    rcases inp_exec_cases d s with h | h | h
    · exact .inl h
    · exact .inr (.inl h)
    · exact .inr (.inr ⟨d, rfl, h⟩)
  | out a => exact lift (unary_exec_cases _ rfl rfl rfl (fun _ => .out))
  | arb a => exact lift (unary_exec_cases _ rfl rfl rfl (fun _ => .arb))
  | jnz c g =>
    refine lift (jump_exec_cases (p := fun x => decide (x ≠ 0)) _ rfl rfl rfl (fun x y hx hy => ?_))
    by_cases h : x = 0
    · subst h; exact .jnzNotTaken hx hy
    · simpa [h] using Effect.jnzTaken hx hy h
  | jz c g =>
    refine lift (jump_exec_cases (p := fun x => decide (x = 0)) _ rfl rfl rfl (fun x y hx hy => ?_))
    by_cases h : x = 0
    · subst h; exact .jzTaken hx hy
    · simpa [h] using Effect.jzNotTaken hx hy h
  | hlt => exact .inl ⟨_, .hlt, rfl⟩

/-- A next state of an instruction is its effect's, or a latched fault's. -/
theorem exec_next (h : exec i s = .next t) : Effect i s t ∨ ∃ r, Raises i s r ∧ t = s.latch r := by
  rcases exec_cases i s with ⟨u, hu, he⟩ | ⟨r, hr, he⟩ | ⟨d, _, _, _, _, he⟩
  · rw [he] at h; cases h; exact .inl hu
  · rw [he] at h; cases h; exact .inr ⟨r, hr, rfl⟩
  · rw [he] at h; cases h

/-! ### What a step can answer -/

/-- Fetching fails below address 0, or because the word is no instruction; else the word decodes. -/
theorem fetchInstr_cases (s : State) :
    (s.ip < 0 ∧ fetchInstr s = .error s.fetchError) ∨
    (0 ≤ s.ip ∧ ∃ e, decode (s.mem.read s.ip.toNat) s.param = .error e ∧
      fetchInstr s = .error (s.decodeError e)) ∨
    (0 ≤ s.ip ∧ ∃ i, decode (s.mem.read s.ip.toNat) s.param = .ok i ∧ fetchInstr s = .ok i) := by
  unfold fetchInstr State.wordAt
  by_cases hip : s.ip < 0
  · exact .inl ⟨hip, by simp [hip]⟩
  · have h0 : 0 ≤ s.ip := not_lt.mp hip
    cases hd : decode (s.mem.read s.ip.toNat) s.param with
    | error e => exact .inr (.inl ⟨h0, e, rfl, by simp [hip, hd]⟩)
    | ok i => exact .inr (.inr ⟨h0, i, rfl, by simp [hip, hd]⟩)

/-- Everything a step can do. -/
theorem step_cases (s : State) :
    (∃ r, s.fault = some r ∧ step s = .fault (.latched r)) ∨
    (s.fault = none ∧ s.terminated = true ∧ step s = .next s) ∨
    (s.fault = none ∧ s.terminated = false ∧
      ((∃ r, fetchInstr s = .error r ∧ r.cause.isLatched = true ∧ r.speaksOf s ∧ step s = .next (s.latch r)) ∨
       (∃ i, fetchInstr s = .ok i ∧ step s = exec i s))) := by
  unfold step
  cases hf : s.fault with
  | some r => exact .inl ⟨r, rfl, rfl⟩
  | none =>
    cases ht : s.terminated with
    | true => exact .inr (.inl ⟨rfl, rfl, by simp⟩)
    | false =>
      refine .inr (.inr ⟨rfl, rfl, ?_⟩)
      rcases fetchInstr_cases s with ⟨_, h⟩ | ⟨_, e, _, h⟩ | ⟨_, i, _, h⟩
      · exact .inl ⟨_, h, rfl, ⟨rfl, rfl⟩, by simp [h]⟩
      · exact .inl ⟨_, h, isLatched_decodeError s e, speaksOf_decodeError s e, by simp [h]⟩
      · exact .inr ⟨i, h, by simp [h]⟩

/-- A next state of a step: the same state on a terminated core; a latched fault and nothing else; or an instruction's
effect. -/
theorem step_next (h : step s = .next t) : s.fault = none ∧
    ((s.terminated = true ∧ t = s) ∨
     (s.terminated = false ∧ ∃ r, r.cause.isLatched = true ∧ r.speaksOf s ∧ t = s.latch r) ∨
     (s.terminated = false ∧ ∃ i, fetchInstr s = .ok i ∧ Effect i s t)) := by
  rcases step_cases s with ⟨r, _, hs⟩ | ⟨hf, ht, hs⟩ | ⟨hf, ht, ⟨r, _, hl, hsp, hs⟩ | ⟨i, hi, hs⟩⟩
  · rw [hs] at h; cases h
  · rw [hs] at h; cases h; exact ⟨hf, .inl ⟨ht, rfl⟩⟩
  · rw [hs] at h; cases h; exact ⟨hf, .inr (.inl ⟨ht, r, hl, hsp, rfl⟩)⟩
  · rw [hs] at h
    rcases exec_next h with he | ⟨r, hr, rfl⟩
    · exact ⟨hf, .inr (.inr ⟨ht, i, hi, he⟩)⟩
    · exact ⟨hf, .inr (.inl ⟨ht, r, hr.isLatched, hr.speaksOf, rfl⟩)⟩

end Sys2Proof.Machine
end

