-- ==== Sys2Proof/Laws/Driver.lean ====
section
/-! SUPPORT. Everything one pass of the driver's loop can do, and the induction over a call, packaged once. -/

namespace Sys2Proof.Machine

variable {s t u : State} {b : Bool} {r : Result} {fuel : Nat}

/-! ### At rest -/

theorem atRest_eq_none : atRest s = none ↔ s.fault = none ∧ s.terminated = false := by
  unfold atRest
  cases s.fault <;> cases s.terminated <;> simp

/-- What a call that executes nothing returns. -/
theorem atRest_cases (h : atRest s = some r) :
    (∃ q, s.fault = some q ∧ r = .fault q) ∨ (s.fault = none ∧ s.terminated = true ∧ r = .halted) := by
  unfold atRest at h
  cases hf : s.fault with
  | some q => simp only [hf, Option.some.injEq] at h; exact .inl ⟨q, rfl, h.symm⟩
  | none =>
    cases ht : s.terminated with
    | true => exact .inr ⟨rfl, rfl, by simpa [hf, ht, eq_comm] using h⟩
    | false => simp [hf, ht] at h

theorem driveOnce_of_atRest (b : Bool) (h : atRest s = some r) : driveOnce b s = .returned r s := by
  simp [driveOnce, h]

theorem drive_of_atRest (b : Bool) (fuel : Nat) (h : atRest s = some r) : drive b fuel s = .returned r s := by
  cases fuel <;> simp [drive, driveOnce, h]

/-! ### One step of a running core -/

/-- A running core latches a fault, misses an input, or has an instruction's effect. -/
theorem step_running (h : atRest s = none) :
    (∃ q, q.cause.isLatched = true ∧ q.speaksOf s ∧ step s = .next (s.latch q)) ∨
    (∃ d n, fetchInstr s = .ok (.inp d) ∧ s.inq = [] ∧ s.defaultInput = none ∧ Targets s d n ∧
      step s = .fault (.missingInput s.inputError)) ∨
    (∃ i t, fetchInstr s = .ok i ∧ Effect i s t ∧ step s = .next t) := by
  obtain ⟨hf, ht⟩ := atRest_eq_none.mp h
  rcases step_cases s with ⟨q, hq, _⟩ | ⟨_, ht', _⟩ | ⟨_, _, ⟨q, _, hl, hsp, hs⟩ | ⟨i, hi, hs⟩⟩
  · rw [hf] at hq; cases hq
  · rw [ht] at ht'; cases ht'
  · exact .inl ⟨q, hl, hsp, hs⟩
  · rcases exec_cases i s with ⟨t, he, hx⟩ | ⟨q, hr, hx⟩ | ⟨d, rfl, hq, hd, ⟨n, hn⟩, hx⟩
    · exact .inr (.inr ⟨i, t, hi, he, hs.trans hx⟩)
    · exact .inl ⟨q, hr.isLatched, hr.speaksOf, hs.trans hx⟩
    · exact .inr (.inl ⟨d, n, hi, hq, hd, hn, hs.trans hx⟩)

/-! ### One pass of the loop -/

/-- The event of an effect: OUT's is the value appended, every other instruction's is no output. -/
theorem eventOf_effect {i : Instr} (h : Effect i s t) :
    (∃ a x, i = .out a ∧ t.outq = s.outq ++ [x] ∧ eventOf i t = .output x) ∨
    ((∀ a, i ≠ .out a) ∧ t.outq = s.outq ∧ (eventOf i t = .goOn ∨ eventOf i t = .halt)) := by
  cases h with
  | @out s a x _ => exact .inl ⟨a, x, rfl, rfl, by simp [eventOf]⟩
  | _ => exact .inr ⟨by simp, rfl, by simp [eventOf]⟩

/-- Everything a pass can do. -/
theorem driveOnce_cases (b : Bool) (s : State) :
    (∃ r, atRest s = some r ∧ driveOnce b s = .returned r s) ∨
    (atRest s = none ∧ ∃ q, q.cause.isLatched = true ∧ q.speaksOf s ∧ step s = .next (s.latch q) ∧
      driveOnce b s = .returned (.fault q) (s.latch q)) ∨
    (atRest s = none ∧ s.inq = [] ∧ s.defaultInput = none ∧ step s = .fault (.missingInput s.inputError) ∧
      driveOnce b s = .returned (.fault s.inputError) s) ∨
    (atRest s = none ∧ ∃ i t, fetchInstr s = .ok i ∧ Effect i s t ∧ step s = .next t ∧
      ((∃ a x, i = .out a ∧ t.outq = s.outq ++ [x] ∧
          driveOnce b s = if b then .returned (.produced x) t.popOutput else .continues t) ∨
       ((∀ a, i ≠ .out a) ∧ t.outq = s.outq ∧ driveOnce b s = .continues t))) := by
  cases hr : atRest s with
  | some r => exact .inl ⟨r, rfl, driveOnce_of_atRest b hr⟩
  | none =>
    rcases step_running hr with ⟨q, hl, hsp, hs⟩ | ⟨d, n, _, hq, hd, _, hs⟩ | ⟨i, t, hi, he, hs⟩
    · exact .inr (.inl ⟨rfl, q, hl, hsp, hs, by simp [driveOnce, hr, hs]⟩)
    · exact .inr (.inr (.inl ⟨rfl, hq, hd, hs, by simp [driveOnce, hr, hs]⟩))
    · have hf : t.fault = none := he.fault.trans (atRest_eq_none.mp hr).1
      refine .inr (.inr (.inr ⟨rfl, i, t, hi, he, hs, ?_⟩))
      rcases eventOf_effect he with ⟨a, x, hia, hq, hev⟩ | ⟨hia, hq, hev⟩
      · exact .inl ⟨a, x, hia, hq, by simp [driveOnce, hr, hs, hf, eventAt, hi, hev]⟩
      · exact .inr ⟨hia, hq, by rcases hev with hev | hev <;> simp [driveOnce, hr, hs, hf, eventAt, hi, hev]⟩

/-- The same, from the pass's answer: the call returns. -/
theorem driveOnce_returned (h : driveOnce b s = .returned r t) :
    (atRest s = some r ∧ t = s) ∨
    (atRest s = none ∧ ∃ q, q.cause.isLatched = true ∧ q.speaksOf s ∧ step s = .next t ∧ t = s.latch q ∧
      r = .fault q) ∨
    (atRest s = none ∧ s.inq = [] ∧ s.defaultInput = none ∧ t = s ∧ r = .fault s.inputError) ∨
    (atRest s = none ∧ b = true ∧ ∃ a x w, fetchInstr s = .ok (.out a) ∧ Effect (.out a) s w ∧ step s = .next w ∧
      w.outq = s.outq ++ [x] ∧ t = w.popOutput ∧ r = .produced x) := by
  rcases driveOnce_cases b s with ⟨r', hr, hd⟩ | ⟨hr, q, hl, hsp, hs, hd⟩ | ⟨hr, hq, hdef, _, hd⟩ |
      ⟨hr, i, w, hi, he, hs, ⟨a, x, rfl, hq, hd⟩ | ⟨_, _, hd⟩⟩
  · rw [hd] at h; cases h; exact .inl ⟨hr, rfl⟩
  · rw [hd] at h; cases h; exact .inr (.inl ⟨hr, q, hl, hsp, hs, rfl, rfl⟩)
  · rw [hd] at h; cases h; exact .inr (.inr (.inl ⟨hr, hq, hdef, rfl, rfl⟩))
  · cases b with
    | false => rw [hd] at h; cases h
    | true => rw [hd] at h; cases h; exact .inr (.inr (.inr ⟨hr, rfl, a, x, w, hi, he, hs, hq, rfl, rfl⟩))
  · rw [hd] at h; cases h

/-- The same, from the pass's answer: the loop goes on. -/
theorem driveOnce_continues (h : driveOnce b s = .continues t) :
    atRest s = none ∧ ∃ i, fetchInstr s = .ok i ∧ Effect i s t ∧ step s = .next t ∧
      ((b = false ∧ ∃ a x, i = .out a ∧ t.outq = s.outq ++ [x]) ∨ ((∀ a, i ≠ .out a) ∧ t.outq = s.outq)) := by
  rcases driveOnce_cases b s with ⟨r', hr, hd⟩ | ⟨hr, q, hl, hsp, hs, hd⟩ | ⟨hr, hq, hdef, _, hd⟩ |
      ⟨hr, i, w, hi, he, hs, ⟨a, x, rfl, hq, hd⟩ | ⟨hia, hq, hd⟩⟩
  · rw [hd] at h; cases h
  · rw [hd] at h; cases h
  · rw [hd] at h; cases h
  · cases b with
    | false => rw [hd] at h; cases h; exact ⟨hr, _, hi, he, hs, .inl ⟨rfl, a, x, rfl, hq⟩⟩
    | true => rw [hd] at h; cases h
  · rw [hd] at h; cases h; exact ⟨hr, _, hi, he, hs, .inr ⟨hia, hq⟩⟩

/-! ### A whole call -/

/-- Induction over a call that returns: what holds of a pass that returns, and is carried back over a pass that goes
on, holds of the call. -/
theorem drive_returned_induction {b : Bool} {P : State → Result → State → Prop}
    (ret : ∀ s r t, driveOnce b s = .returned r t → P s r t)
    (cont : ∀ s u r t, driveOnce b s = .continues u → P u r t → P s r t)
    {fuel : Nat} {s : State} {r : Result} {t : State} (h : drive b fuel s = .returned r t) : P s r t := by
  induction fuel generalizing s with
  | zero =>
    unfold drive at h
    split at h
    · next r' hr => cases h; exact ret _ _ _ (driveOnce_of_atRest b hr)
    · cases h
  | succ fuel ih =>
    unfold drive at h
    split at h
    · next hd => cases h; exact ret _ _ _ hd
    · next hd => exact cont _ _ _ _ hd (ih h)
    · cases h

/-- What every step keeps, and the removal of the last output keeps, every call keeps. -/
theorem drive_keeps {P : State → Prop} (hstep : ∀ s t, P s → step s = .next t → P t)
    (hpop : ∀ s, P s → P s.popOutput) (hs : P s) (h : drive b fuel s = .returned r t) : P t := by
  revert hs
  refine drive_returned_induction (b := b) (P := fun s _ t => P s → P t) ?_ ?_ h
  · intro s r t hd hs
    rcases driveOnce_returned hd with ⟨_, rfl⟩ | ⟨_, q, _, _, hst, _, _⟩ | ⟨_, _, _, rfl, _⟩ |
        ⟨_, _, a, x, w, _, _, hst, _, rfl, _⟩
    · exact hs
    · exact hstep _ _ hs hst
    · exact hs
    · exact hpop _ (hstep _ _ hs hst)
  · intro s u r t hd ih hs
    obtain ⟨_, i, _, _, hst, _⟩ := driveOnce_continues hd
    exact ih (hstep _ _ hs hst)

/-- A finished command that was a call. -/
theorem performed_eq_done {c : Call} {q : HostResult} (h : c.performed = .done q t) :
    ∃ r, q = .call r ∧ c = .returned r t := by
  cases c with
  | returned r s => cases h; exact ⟨r, rfl, rfl⟩
  | outOfFuel s => cases h
  | refused q => cases h

end Sys2Proof.Machine
end

