-- ==== Sys2Proof/Laws/PerInstr.lean ====
section
/-! SUPPORT. Statements made for every instruction as syntax, one lemma per constructor: the length of its encoding
(30_encoding.md R50) and the shape of its word (R51). -/

namespace Sys2Proof.Laws.EncodeLength

/-- An encoded instruction takes as many cells as the table gives its opcode. -/
def Statement (i : Instr) : Prop := (encode i).length = i.opcode.length

theorem add (a b d : Operand) : Statement (.add a b d) := rfl
theorem mul (a b d : Operand) : Statement (.mul a b d) := rfl
theorem inp (d : Operand) : Statement (.inp d) := rfl
theorem out (a : Operand) : Statement (.out a) := rfl
theorem jnz (c t : Operand) : Statement (.jnz c t) := rfl
theorem jz (c t : Operand) : Statement (.jz c t) := rfl
theorem lt (a b d : Operand) : Statement (.lt a b d) := rfl
theorem eq (a b d : Operand) : Statement (.eq a b d) := rfl
theorem arb (a : Operand) : Statement (.arb a) := rfl
theorem hlt : Statement .hlt := rfl

end Sys2Proof.Laws.EncodeLength

namespace Sys2Proof.Laws.WordShape

/-- The low two digits of an encoded word are the opcode, and above them stands the mode number, which has no more
digits than the opcode has parameters. -/
def Statement (i : Instr) : Prop :=
  encodeWord i % 100 = i.opcode.code ∧ encodeWord i / 100 = modeNumber i.operands ∧
    modeNumber i.operands < 10 ^ i.opcode.arity

theorem digit_le_two (m : Mode) : m.digit ≤ 2 := by cases m <;> decide

theorem modeNumber_lt (os : List Operand) : modeNumber os < 10 ^ os.length := by
  induction os with
  | nil => decide
  | cons o os ih =>
    have := digit_le_two o.mode
    simp only [modeNumber, List.length_cons, Nat.pow_succ]
    omega

theorem of_arity {i : Instr} (h : i.operands.length = i.opcode.arity) (hc : i.opcode.code < 100) : Statement i := by
  have := modeNumber_lt i.operands
  rw [h] at this
  unfold Statement encodeWord
  omega

theorem add (a b d : Operand) : Statement (.add a b d) := of_arity rfl (by simp [Instr.opcode, Opcode.code])
theorem mul (a b d : Operand) : Statement (.mul a b d) := of_arity rfl (by simp [Instr.opcode, Opcode.code])
theorem inp (d : Operand) : Statement (.inp d) := of_arity rfl (by simp [Instr.opcode, Opcode.code])
theorem out (a : Operand) : Statement (.out a) := of_arity rfl (by simp [Instr.opcode, Opcode.code])
theorem jnz (c t : Operand) : Statement (.jnz c t) := of_arity rfl (by simp [Instr.opcode, Opcode.code])
theorem jz (c t : Operand) : Statement (.jz c t) := of_arity rfl (by simp [Instr.opcode, Opcode.code])
theorem lt (a b d : Operand) : Statement (.lt a b d) := of_arity rfl (by simp [Instr.opcode, Opcode.code])
theorem eq (a b d : Operand) : Statement (.eq a b d) := of_arity rfl (by simp [Instr.opcode, Opcode.code])
theorem arb (a : Operand) : Statement (.arb a) := of_arity rfl (by simp [Instr.opcode, Opcode.code])
theorem hlt : Statement .hlt := of_arity rfl (by simp [Instr.opcode, Opcode.code])

end Sys2Proof.Laws.WordShape
end

