-- ==== Sys2Proof/Tests/Slice0.lean ====
section
/-! SUPPORT. Tests: the well-formedness smoke test, the decoder on words of the spec's tables, one step of each
instruction on the images of 95_test_vectors.md, and for every statement with hypotheses a witness that meets them. Every
expected value is the spec's: the vector or rule is named in the comment. -/

namespace Sys2Proof.Tests

open Sys2Proof Sys2Proof.Machine

/-! ## Helpers -/

/-- A core right after LOAD. -/
def loaded (program inputs : List Int) : State := State.reset.load program inputs

/-- The next state of an outcome, if it is one. -/
def nextOf : Host.Outcome State Fault Refusal → Option State
  | .next t => some t
  | .fault _ => none
  | .refused _ => none

/-- The fault of an outcome, if it is one. -/
def faultOf : Host.Outcome State Fault Refusal → Option Fault
  | .next _ => none
  | .fault f => some f
  | .refused _ => none

/-- One step's next state, if it has one. -/
def stepped (s : State) : Option State := nextOf (step s)

/-- The cell at an address of the next state. -/
def cellAfter (s : State) (a : Nat) : Option Int := (stepped s).map (fun t => t.mem.read a)

/-- The record a step latches. -/
def latchedBy (s : State) : Option FaultRecord := (stepped s).bind State.fault

/-- An operand in each mode. -/
def pos (p : Int) : Operand := ⟨.position, p⟩
def imm (p : Int) : Operand := ⟨.immediate, p⟩
def rel (p : Int) : Operand := ⟨.relative, p⟩

/-! ## Well-formedness: each check refuses an ill-formed term (30_encoding.md R62, R63) -/

theorem test_wellFormed_add : (Instr.add (pos 0) (pos 0) (imm 0)).wellFormed = false := by decide
theorem test_wellFormed_mul : (Instr.mul (rel 0) (imm 0) (imm 0)).wellFormed = false := by decide
theorem test_wellFormed_inp : (Instr.inp (imm 0)).wellFormed = false := by decide
theorem test_wellFormed_lt : (Instr.lt (pos 0) (pos 0) (imm 0)).wellFormed = false := by decide
theorem test_wellFormed_eq : (Instr.eq (pos 0) (pos 0) (imm 0)).wellFormed = false := by decide
/-- Immediate sources, and an immediate jump target, are legal. -/
theorem test_wellFormed_sources : (Instr.add (imm 0) (imm 0) (rel 0)).wellFormed = true ∧
    (Instr.jnz (imm 1) (imm 4)).wellFormed = true ∧ (Instr.out (imm 0)).wellFormed = true := by decide

/-! ## Decoding: each constructor by words written out from 30_encoding.md R51, R54 (`C B A opcode`) -/

theorem test_decode_add : decodeCells [1, 5, 6, 7] = .ok (.add (pos 5) (pos 6) (pos 7)) ∧
    decodeCells [21101, 5, 6, 7] = .ok (.add (imm 5) (imm 6) (rel 7)) ∧
    decodeCells [2201, 5, 6, 7] = .ok (.add (rel 5) (rel 6) (pos 7)) := by decide
theorem test_decode_mul : decodeCells [1002, 4, 3, 5] = .ok (.mul (pos 4) (imm 3) (pos 5)) ∧
    decodeCells [20102, 4, 3, 5] = .ok (.mul (imm 4) (pos 3) (rel 5)) := by decide
theorem test_decode_inp : decodeCells [3, 9] = .ok (.inp (pos 9)) ∧ decodeCells [203, -2] = .ok (.inp (rel (-2))) := by
  decide
theorem test_decode_out : decodeCells [4, 9] = .ok (.out (pos 9)) ∧ decodeCells [104, -3] = .ok (.out (imm (-3))) ∧
    decodeCells [204, 9] = .ok (.out (rel 9)) := by decide
theorem test_decode_jnz : decodeCells [1005, 4, 3] = .ok (.jnz (pos 4) (imm 3)) ∧
    decodeCells [105, 4, 3] = .ok (.jnz (imm 4) (pos 3)) ∧ decodeCells [2205, 4, 3] = .ok (.jnz (rel 4) (rel 3)) := by
  decide
theorem test_decode_jz : decodeCells [1106, 4, 3] = .ok (.jz (imm 4) (imm 3)) ∧
    decodeCells [206, 4, 3] = .ok (.jz (rel 4) (pos 3)) := by decide
theorem test_decode_lt : decodeCells [21107, 1, 2, -4] = .ok (.lt (imm 1) (imm 2) (rel (-4))) ∧
    decodeCells [7, 1, 2, 4] = .ok (.lt (pos 1) (pos 2) (pos 4)) := by decide
theorem test_decode_eq : decodeCells [22208, 0, 1, 2] = .ok (.eq (rel 0) (rel 1) (rel 2)) ∧
    decodeCells [108, 0, 1, 2] = .ok (.eq (imm 0) (pos 1) (pos 2)) := by decide
theorem test_decode_arb : decodeCells [9, 7] = .ok (.arb (pos 7)) ∧ decodeCells [109, -7] = .ok (.arb (imm (-7))) ∧
    decodeCells [209, 7] = .ok (.arb (rel 7)) := by decide
/-- V-DEC2, V-DEC22. -/
theorem test_decode_hlt : decodeCells [99] = .ok .hlt ∧ decodeCells [199] = .ok .hlt ∧ decodeCells [299] = .ok .hlt ∧
    decodeCells [20099] = .ok .hlt ∧ decodeCells [100099] = .ok .hlt := by decide
/-- V-DEC27, V-DEC30, V-DEC31: surplus digits 0 to 2 are ignored. -/
theorem test_decode_surplus : decodeCells [100001, 1, 2, 3] = .ok (.add (pos 1) (pos 2) (pos 3)) ∧
    decodeCells [100004, 8] = .ok (.out (pos 8)) ∧ decodeCells [1000000000003, 8] = .ok (.inp (pos 8)) := by decide
/-- V-DEC3 to V-DEC8, V-DEC25, V-DEC28. -/
theorem test_decode_unknown : decodeCells [0] = .error .unknownOpcode ∧ decodeCells [-1] = .error .unknownOpcode ∧
    decodeCells [-99] = .error .unknownOpcode ∧ decodeCells [-101] = .error .unknownOpcode ∧
    decodeCells [10] = .error .unknownOpcode ∧ decodeCells [98] = .error .unknownOpcode ∧
    decodeCells [100] = .error .unknownOpcode ∧ decodeCells [1077] = .error .unknownOpcode ∧
    decodeCells [222222] = .error .unknownOpcode := by decide
/-- V-DEC23, V-DEC24, V-DEC26, V-DEC29. -/
theorem test_decode_invalidMode : decodeCells [399] = .error .invalidMode ∧ decodeCells [377] = .error .invalidMode ∧
    decodeCells [3001] = .error .invalidMode ∧ decodeCells [31101] = .error .invalidMode ∧
    decodeCells [12345] = .error .invalidMode ∧ decodeCells [1300004] = .error .invalidMode := by decide
/-- V-DEC15, V-DEC16, V-DEC18, and the words of 30_encoding.md R62. -/
theorem test_decode_immediateTarget : decodeCells [12102] = .error (.immediateWriteTarget 3) ∧
    decodeCells [10001] = .error (.immediateWriteTarget 3) ∧ decodeCells [10007] = .error (.immediateWriteTarget 3) ∧
    decodeCells [11108] = .error (.immediateWriteTarget 3) ∧ decodeCells [103] = .error (.immediateWriteTarget 1) := by
  decide
/-- The `match` column of spec/opcode_table.json, row by row. -/
theorem test_table_rows : [1, 2, 3, 4, 5, 6, 7, 8, 9, 99].map (fun w => (decodeTableWord 8 w).map Instr.opcode) =
    [some .add, some .mul, some .inp, some .out, some .jnz, some .jz, some .lt, some .eq, some .arb, some .hlt] := by
  decide
/-- Each of them runs as the first instruction after reset; IN finds no input there (41_input_output.md R87). -/
theorem test_table_rows_run : [1, 2, 4, 5, 6, 7, 8, 9, 99].all (fun w =>
      (stepped (State.reset.withFetchWord 8 w)).map State.fault = some none) = true ∧
    faultOf (step (State.reset.withFetchWord 8 3)) =
      some (.missingInput ⟨.missingInputError, none, 0, some 3, none, none⟩) := by decide
/-- The encoder on a word of V-DEC12 and on V-DEC2. -/
theorem test_encode : encode (.add (imm 5) (imm 6) (rel 3)) = [21101, 5, 6, 3] ∧ encode .hlt = [99] := by decide
/-- The two words at odds in 30_encoding.md R77 (assumption log 12), as the digits of R51 and R54 read them. -/
theorem test_decode_r77 : decodeCells [2101, 1, 3, 20] = .ok (.add (imm 1) (rel 3) (pos 20)) ∧
    decodeCells [1201, 1, 3, 20] = .ok (.add (rel 1) (imm 3) (pos 20)) := by decide
/-- R77's example by R77's formula: 1 + 100 + 2000. -/
theorem test_encode_r77 : encode (.add (imm 1) (rel 3) (pos 20)) = [2101, 1, 3, 20] := by decide
theorem test_decodeTableWord : decodeTableWord 8 99 = some .hlt ∧ decodeTableWord 16 1102 = some (.mul (imm 0) (imm 0) (pos 0)) ∧
    decodeTableWord 16 103 = none := by decide

/-! ## One step of each instruction -/

/-- V-A1: the destination is the instruction's own word. -/
theorem test_add_own_word : cellAfter (loaded [1, 0, 0, 0, 99] []) 0 = some 2 ∧
    (stepped (loaded [1, 0, 0, 0, 99] [])).map State.ip = some 4 := by decide
/-- V-A14: 2^63 - 1 plus 1 does not wrap. -/
theorem test_add_exact : cellAfter (loaded [1101, 9223372036854775807, 1, 5, 99, 0] []) 5 = some 9223372036854775808 := by
  decide
/-- V-A13: 2^32 squared is 2^64. -/
theorem test_mul_exact : cellAfter (loaded [1102, 4294967296, 4294967296, 5, 99, 0] []) 5 = some 18446744073709551616 := by
  decide
/-- V-E2 and V-A10. -/
theorem test_mul_signs : cellAfter (loaded [1002, 4, 3, 4, 33] []) 4 = some 99 ∧
    cellAfter (loaded [1102, -7, 8, 5, 99, 0] []) 5 = some (-56) := by decide
/-- V-I5: the queue before the default; the default stays. -/
theorem test_inp_queue : (stepped ((loaded [3, 0, 4, 0, 99] [7]).setDefault 42)).map
    (fun t => (t.mem.read 0, t.inq, t.defaultInput, t.ip)) = some (7, [], some 42, 2) := by decide
/-- V-I3, V-I4. -/
theorem test_inp_empty : faultOf (step (loaded [3, 0, 4, 0, 99] [])) =
      some (.missingInput ⟨.missingInputError, none, 0, some 3, none, none⟩) ∧
    cellAfter ((loaded [3, 0, 4, 0, 99] []).setDefault 42) 0 = some 42 := by decide
/-- V-O2 and V-O1. -/
theorem test_out : (stepped (loaded [104, -3, 99] [])).map (fun t => (t.outq, t.ip)) = some ([-3], 2) ∧
    (stepped (loaded [4, 0, 99] [])).map State.outq = some [4] := by decide
/-- V-J1, V-J2, V-J5. -/
theorem test_jnz : (stepped (loaded [1105, 1, 4, 99] [])).map State.ip = some 4 ∧
    (stepped (loaded [1105, 0, 4, 99] [])).map State.ip = some 3 ∧
    (stepped (loaded [1105, -1, 4, 99] [])).map State.ip = some 4 := by decide
/-- V-J14: the target is resolved though the jump is not taken. -/
theorem test_jnz_eager : latchedBy (loaded [5, 3, -1, 0, 99] []) =
    some ⟨.addressError, some .read, 0, some 5, some (-1), some 2⟩ := by decide
/-- V-J3, V-J4. -/
theorem test_jz : (stepped (loaded [1106, 0, 4, 99] [])).map State.ip = some 4 ∧
    (stepped (loaded [1106, 1, 4, 99] [])).map State.ip = some 3 := by decide
/-- V-CMP9, V-CMP10, V-CMP11. -/
theorem test_lt : cellAfter (loaded [1107, -2, -1, 5, 99, 7] []) 5 = some 1 ∧
    cellAfter (loaded [1107, -1, -2, 5, 99, 7] []) 5 = some 0 ∧
    cellAfter (loaded [1107, 3, 3, 5, 99, 7] []) 5 = some 0 := by decide
/-- V-CMP20: 2^64 - 1 is less than 2^64. -/
theorem test_lt_exact : cellAfter (loaded [1107, 18446744073709551615, 18446744073709551616, 5, 99, 7] []) 5 = some 1 := by
  decide
/-- V-CMP12, V-CMP13, and V-CMP15, where the destination is a source. -/
theorem test_eq : cellAfter (loaded [1108, 0, 0, 5, 99, 7] []) 5 = some 1 ∧
    cellAfter (loaded [1108, 0, 1, 5, 99, 7] []) 5 = some 0 ∧
    cellAfter (loaded [8, 9, 10, 9, 99, 0, 0, 0, 0, 5, 5] []) 9 = some 1 := by decide
/-- V-RB3: ARB adds; V-RB6: ARB's own operand goes through the old base. -/
theorem test_arb : (stepped { loaded [109, -7, 99] [] with rb := 19 }).map (fun t => (t.rb, t.ip)) = some (12, 2) ∧
    (stepped { loaded [209, -1, 99, -1] [] with rb := 4 }).map State.rb = some 3 := by decide
/-- V-H1. -/
theorem test_hlt : stepped (loaded [99] []) = some { loaded [99] [] with ip := 1, terminated := true } := by decide
/-- V-F11, V-F12, V-F14, V-F8: the priority of the faults. -/
theorem test_fault_priority :
    latchedBy (loaded [10001, -1, 0, 0] []) = some ⟨.decodeError, some .immediateWriteTarget, 0, some 10001, none, some 3⟩ ∧
    latchedBy (loaded [1, -1, -2, -3] []) = some ⟨.addressError, some .read, 0, some 1, some (-1), some 1⟩ ∧
    latchedBy (loaded [1, 0, 0, -3, 99] []) = some ⟨.addressError, some .write, 0, some 1, some (-3), some 3⟩ ∧
    latchedBy (loaded [3001, 0, 0, 0, 99] []) = some ⟨.decodeError, some .invalidMode, 0, some 3001, none, none⟩ := by
  decide
/-- V-I10 and V-F16. -/
theorem test_fault_write : latchedBy (loaded [3, -1, 99] []) = some ⟨.addressError, some .write, 0, some 3, some (-1), some 1⟩ ∧
    latchedBy (loaded [21107, 1, 2, -4, 99] []) = some ⟨.addressError, some .write, 0, some 21107, some (-4), some 3⟩ := by
  decide
/-- V-J11: a negative target is caught at the fetch. -/
theorem test_fault_fetch : latchedBy { loaded [1105, 1, -7] [] with ip := -7 } =
    some ⟨.addressError, some .fetch, -7, none, some (-7), none⟩ := by decide
/-- V-X5's second STEP on its last two instructions, V-X7: STEP takes only the value it returns. -/
theorem test_step_call : drive true 3 { loaded [104, 2, 99] [] with outq := [1] } =
    .returned (.produced 2) { loaded [104, 2, 99] [] with outq := [1], ip := 2 } := by decide
/-- V-X9: STATUS and STEP after power-on. -/
theorem test_power_on : perform 1 .status State.reset = .done (.status ⟨.running, 0, 0, 0, 0, none, none⟩) State.reset ∧
    drive true 1 State.reset = .returned (.fault ⟨.decodeError, some .unknownOpcode, 0, some 0, none, none⟩)
      { State.reset with fault := some ⟨.decodeError, some .unknownOpcode, 0, some 0, none, none⟩ } := by decide
/-- 20_memory.md R33 and 10_state.md R23: a written 0 leaves no trace. -/
theorem test_memory_canonical : Memory.write (Memory.write [] 7 5) 7 0 = [] ∧
    Memory.write [(3, 1), (9, 2)] 5 4 = [(3, 1), (5, 4), (9, 2)] := by decide

/-! ## Witnesses: for each statement with hypotheses, concrete values that meet all of them -/

/-- Cells 5, 6, 7 hold 10, 3, -1; the relative base is 4; the rest as after reset. -/
def sample : State := { State.reset with mem := [(5, 10), (6, 3), (7, -1)], rb := 4 }

/-- A record a core may hold latched: V-F2's. -/
def unknownZero : FaultRecord := ⟨.decodeError, some .unknownOpcode, 0, some 0, none, none⟩

/-- A faulted core (V-F1), a terminated one (V-H1). -/
def faulted : State := { State.reset with fault := some unknownZero }
def halted : State := { loaded [99] [] with ip := 1, terminated := true }

theorem witness_PowerOnResetState : State.reset.defaultInput = none := by decide

/-- One command of each of the four alternatives, on a core whose default is set. -/
theorem witness_DefaultInputWritersAreThree :
    perform 2 .run ((loaded [99] []).setDefault 42) = .done (.call .halted) (halted.setDefault 42) ∧
    perform 0 (.setDefault 7) (sample.setDefault 42) = .done .nothing (sample.setDefault 7) ∧
    perform 0 .clearDefault (sample.setDefault 42) = .done .nothing sample ∧
    perform 0 .powerOn (sample.setDefault 42) = .done .nothing State.reset := by decide

theorem witness_OnlyResetLeavesTerminalStatus :
    (halted.status ≠ .running ∧ perform 0 (.addInput 5) halted = .done .nothing { halted with inq := [5] }) ∧
    (faulted.status ≠ .running ∧ perform 0 .run faulted = .done (.call (.fault unknownZero)) faulted) ∧
    (faulted.status ≠ .running ∧ perform 0 (.load [99] []) faulted = .done .nothing (loaded [99] [])) ∧
    (halted.status ≠ .running ∧ perform 0 .powerOn halted = .done .nothing State.reset) := by decide

/-- The first half's premises: a running, a terminated and a faulted core, and a command that is none of the four. -/
theorem witness_SuspendResumeTransitions_idle :
    sample.status = .running ∧ halted.status = .terminated ∧ faulted.fault = some unknownZero ∧
    (∀ p q, HostAction.clearDefault ≠ .load p q) ∧ HostAction.clearDefault ≠ .powerOn ∧
    HostAction.clearDefault ≠ .run ∧ HostAction.clearDefault ≠ .step := by
  refine ⟨?_, ?_, ?_, ?_, ?_, ?_, ?_⟩ <;> first | decide | exact fun _ _ => by simp

/-- The second half's: a step that goes on (ARB), one that outputs, HLT, a missing input, a latched fault. -/
theorem witness_SuspendResumeTransitions_executing :
    ((loaded [109, 19] []).status = .running ∧ fetchInstr (loaded [109, 19] []) = .ok (.arb (imm 19)) ∧
      stepped (loaded [109, 19] []) = some { loaded [109, 19] [] with rb := 19, ip := 2 }) ∧
    (fetchInstr (loaded [104, -3] []) = .ok (.out (imm (-3))) ∧ Reads (loaded [104, -3] []) (imm (-3)) (-3) ∧
      stepped (loaded [104, -3] []) = some { loaded [104, -3] [] with outq := [-3], ip := 2 }) ∧
    (fetchInstr (loaded [99] []) = .ok .hlt ∧ stepped (loaded [99] []) = some halted) ∧
    faultOf (step (loaded [3, 0] [])) = some (.missingInput ⟨.missingInputError, none, 0, some 3, none, none⟩) ∧
    (stepped State.reset = some faulted ∧ faulted.fault = some unknownZero) := by decide

/-- Both sides of the equivalence, for a core at rest and for a running one. -/
theorem witness_SessionRefinesDrive : Returns false halted .halted halted ∧ Returns true (loaded [99] []) .halted halted ∧
    Session.issue .step ⟨loaded [99] [], .idle⟩ = some (⟨loaded [99] [], .executing true⟩, none) ∧
    Session.ticks 1 ⟨loaded [99] [], .executing true⟩ = some (⟨halted, .idle⟩, some .halted) :=
  ⟨⟨0, by decide⟩, ⟨2, by decide⟩, by decide, by decide⟩

theorem witness_DecodeOfEncode : (Instr.add (imm 5) (pos (-6)) (rel 3)).wellFormed = true := by decide

/-- With and without surplus digits. -/
theorem witness_EncodeOfDecode : decode 20102 (fun k => k) = .ok (.mul (imm 1) (pos 2) (rel 3)) ∧
    decode 100004 (fun k => k) = .ok (.out (pos 1)) := by decide

theorem witness_SmallWordsAreTheirOwnOpcode : (99 : Int) ≤ 99 ∧ (0 : Int) ≤ 0 ∧ (-101 : Int) ≤ 0 := by decide

/-- The two sides of each equivalence at a boundary: 399 has a digit 3 at place 1; 10 and 98 bound the unknown opcodes;
10001 has digit 1 at place 3. -/
theorem witness_InvalidModeExactly : (100 : Int) ≤ 399 ∧ 3 ≤ digit ((399 : Int).toNat / 100) 1 ∧
    decodeHead 399 = .error .invalidMode := by decide
theorem witness_UnknownOpcodeExactly : decodeHead 0 = .error .unknownOpcode ∧ decodeHead 10 = .error .unknownOpcode ∧
    decodeHead 98 = .error .unknownOpcode ∧ decodeHead 100 = .error .unknownOpcode ∧
    decodeHead 198 = .error .unknownOpcode ∧ decodeHead 9 ≠ .error .unknownOpcode ∧
    decodeHead 199 ≠ .error .unknownOpcode := by decide
theorem witness_ImmediateTargetExactly : decodeHead 10001 = .error (.immediateWriteTarget 3) ∧
    decodeHead 103 = .error (.immediateWriteTarget 1) ∧ decodeHead 10003 = .ok ⟨.inp, [.position, .position, .immediate]⟩ := by
  decide

theorem witness_RowSelectedExactly : decodeHead 22201 = .ok ⟨.add, [.relative, .relative, .relative]⟩ ∧
    decodeHead 3 = .ok ⟨.inp, []⟩ := by decide

/-- Place 2 of OUT's word, which OUT has no parameter for, holds the digit 1: the word 1104. -/
theorem witness_SurplusDigitsIgnored : (Instr.out (imm 7)).wellFormed = true ∧ (∀ k ≥ 1, digit 1 k ≤ 2) ∧
    encodeWord (.out (imm 7)) + 10 ^ (2 + 1) * 1 = 1104 := by
  refine ⟨by decide, fun k _ => ?_, by decide⟩
  exact (Nat.mod_le _ _).trans ((Nat.div_le_self 1 _).trans (by decide))

/-- Operands in every mode: a position, an immediate and a relative source; a position and a relative target; address 0
and cell 0 at the boundary. -/
theorem witness_AddStoresSum : Reads sample (pos 5) 10 ∧ Reads sample (rel 2) 3 ∧ Targets sample (pos 0) 0 := by decide
theorem witness_MulStoresProduct : Reads sample (imm (-7)) (-7) ∧ Reads sample (pos 0) 0 ∧ Targets sample (rel (-4)) 0 := by
  decide
theorem witness_LtStoresOrder : Reads sample (pos 7) (-1) ∧ Reads sample (imm 0) 0 ∧ Targets sample (rel 1) 5 := by decide
theorem witness_EqStoresEquality : Reads sample (pos 5) 10 ∧ Reads sample (rel 1) 10 ∧ Targets sample (pos 5) 5 := by
  decide
/-- One witness for each of the three cases. -/
theorem witness_InputFromQueueThenDefault :
    (Targets { sample with inq := [7, 8], defaultInput := some 42 } (rel 5) 9 ∧
      ({ sample with inq := [7, 8], defaultInput := some 42 } : State).inq = 7 :: [8]) ∧
    (Targets (sample.setDefault 42) (pos 0) 0 ∧ (sample.setDefault 42).inq = [] ∧
      (sample.setDefault 42).defaultInput = some 42) ∧
    (Targets sample (pos 0) 0 ∧ sample.inq = [] ∧ sample.defaultInput = none) := by decide
theorem witness_OutAppendsValue : Reads sample (rel 3) (-1) ∧ Reads sample (imm (-3)) (-3) := by decide
/-- A condition that is zero and one that is not; a negative target. -/
theorem witness_JnzJumpsUnlessZero : Reads sample (pos 5) 10 ∧ Reads sample (imm (-7)) (-7) ∧ Reads sample (pos 8) 0 := by
  decide
theorem witness_JzJumpsIfZero : Reads sample (pos 8) 0 ∧ Reads sample (rel 2) 3 ∧ Reads sample (pos 7) (-1) := by decide
theorem witness_ArbAddsToBase : Reads sample (rel 3) (-1) ∧ Reads sample (imm 19) 19 := by decide

theorem witness_ImmediateTargetRaises :
    ((Instr.eq (pos (-1)) (pos 0) (imm 2)).opcode.writeParam = some 3 ∧
      (Instr.eq (pos (-1)) (pos 0) (imm 2)).operands[3 - 1]? = some (imm 2) ∧ (imm 2).mode = .immediate) ∧
    ((Instr.inp (imm 0)).opcode.writeParam = some 1 ∧ (Instr.inp (imm 0)).operands[1 - 1]? = some (imm 0)) := by decide

/-- Clause 1: the address -1. -/
theorem witness_FirstFaultIsReported_fetch : ({ sample with ip := -1 } : State).fault = none ∧
    ({ sample with ip := -1 } : State).terminated = false ∧ ({ sample with ip := -1 } : State).ip < 0 := by decide
/-- Clause 2: the word 377 has digit 3 at place 1. -/
theorem witness_FirstFaultIsReported_mode : (377 : Int) = (loaded [377] []).mem.read (loaded [377] []).ip.toNat ∧
    ¬ ModesValid 377 := by
  refine ⟨by decide, ?_⟩
  rintro (h | h)
  · exact absurd h (by decide)
  · exact absurd (h 1 le_rfl) (by decide)
/-- Clause 3: the word 98, which has no mode digits. -/
theorem witness_FirstFaultIsReported_opcode : (98 : Int) = (loaded [98] []).mem.read (loaded [98] []).ip.toNat ∧
    ModesValid 98 ∧ ∀ op : Opcode, opcodeOf 98 ≠ op.code :=
  ⟨by decide, .inl (by decide), fun op => by cases op <;> decide⟩
/-- Clause 4: the word 103 has digit 1 at place 1, which is IN's write target. -/
theorem witness_FirstFaultIsReported_target : (103 : Int) = (loaded [103, 0] []).mem.read (loaded [103, 0] []).ip.toNat ∧
    ModesValid 103 ∧ opcodeOf 103 = Opcode.code .inp ∧ Opcode.writeParam .inp = some 1 ∧ modeDigit 103 1 = 1 := by
  refine ⟨by decide, .inr fun k _ => ?_, by decide, by decide, by decide⟩
  exact (Nat.mod_le _ _).trans ((Nat.div_le_self 1 _).trans (by decide))
/-- Clause 5: V-F14, the third parameter is the first with a negative address. -/
theorem witness_FirstFaultIsReported_address :
    decode ((loaded [1, 0, 0, -3, 99] []).mem.read 0) (fun k => (loaded [1, 0, 0, -3, 99] []).mem.read (0 + k)) =
      .ok (.add (pos 0) (pos 0) (pos (-3))) ∧
    NegativeAt (loaded [1, 0, 0, -3, 99] []) (pos (-3)) (-3) ∧
    ∀ (j : Nat) (p : Operand) (f : Int), 1 ≤ j → j < 3 → (Instr.add (pos 0) (pos 0) (pos (-3))).operands[j - 1]? = some p →
      ¬ NegativeAt (loaded [1, 0, 0, -3, 99] []) p f := by
  refine ⟨by decide, by decide, fun j p f h1 h3 hp hn => ?_⟩
  have hp' : p = pos 0 := by
    obtain rfl | rfl : j = 1 ∨ j = 2 := by omega
    · cases hp; rfl
    · cases hp; rfl
  subst hp'
  obtain ⟨he, hf⟩ := hn
  cases he
  exact absurd hf (by decide)
/-- Clause 6: V-I3. -/
theorem witness_FirstFaultIsReported_input :
    decode ((loaded [3, 0] []).mem.read 0) (fun k => (loaded [3, 0] []).mem.read (0 + k)) = .ok (.inp (pos 0)) ∧
    (∀ e, ¬ NegativeAt (loaded [3, 0] []) (pos 0) e) ∧ (loaded [3, 0] []).inq = [] ∧
    (loaded [3, 0] []).defaultInput = none := by
  refine ⟨by decide, fun e hn => ?_, by decide, by decide⟩
  obtain ⟨he, hf⟩ := hn
  cases he
  exact absurd hf (by decide)

/-- A step that latches, and one that misses an input. -/
theorem witness_FaultsArePrecise : (State.reset.fault = none ∧ stepped State.reset = some faulted ∧
      faulted.fault = some unknownZero) ∧
    faultOf (step (loaded [3, 0] [])) = some (.missingInput ⟨.missingInputError, none, 0, some 3, none, none⟩) := by decide
theorem witness_RecordsHaveTheirFields :
    (stepped (loaded [4, -1, 99] []) = some { loaded [4, -1, 99] [] with
        fault := some ⟨.addressError, some .read, 0, some 4, some (-1), some 1⟩ }) ∧
    faultOf (step (loaded [203, 0] [])) = some (.missingInput ⟨.missingInputError, none, 0, some 203, none, none⟩) := by
  decide
theorem witness_FaultedCoreExecutesNothing : faulted.fault = some unknownZero ∧
    perform 3 (.addInput 5) faulted = .done .nothing { faulted with inq := [5] } := by decide
theorem witness_TerminatedCoreExecutesNothing : halted.fault = none ∧ halted.terminated = true := by decide
theorem witness_OnlyHltTerminates : stepped (loaded [1099] []) = some { loaded [1099] [] with ip := 1, terminated := true } ∧
    stepped halted = some halted := by decide

/-- A form that stores (the target's address is `addr 3 d s`) and one that raises (there is no such address). -/
theorem witness_StoreInstructionsFrame :
    ((addr 3 (rel 5) sample).toOption = some 9 ∧
      (nextOf (exec (.lt (pos 5) (imm 3) (rel 5)) sample)).isSome = true) ∧
    ((addr 3 (pos (-1)) sample).toOption = none ∧
      (nextOf (exec (.add (pos 5) (imm 3) (pos (-1))) sample)).isSome = true) := by decide
theorem witness_InputFrame :
    ((addr 1 (rel 5) { sample with inq := [7, 8] }).toOption = some 9 ∧
      (nextOf (exec (.inp (rel 5)) { sample with inq := [7, 8] })).map State.inq = some [8]) ∧
    ((addr 1 (pos (-1)) sample).toOption = none ∧ (nextOf (exec (.inp (pos (-1))) sample)).isSome = true) := by decide
theorem witness_NonStoringInstructionsFrame :
    (Instr.jz (pos 5) (imm 3)).opcode.writeParam = none ∧
    nextOf (exec (.jz (pos 5) (imm 3)) sample) = some { sample with ip := 3 } ∧
    (nextOf (exec (.out (pos (-1))) sample)).isSome = true ∧ (nextOf (exec (.arb (rel 1)) sample)).isSome = true := by decide

theorem witness_StepRunsDecodedInstruction :
    ((loaded [1101, 1, 98, 4] []).fault = none ∧ (loaded [1101, 1, 98, 4] []).terminated = false ∧
      0 ≤ (loaded [1101, 1, 98, 4] []).ip) ∧
    decode ((loaded [1101, 1, 98, 4] []).mem.read 0) (fun k => (loaded [1101, 1, 98, 4] []).mem.read (0 + k)) =
      .ok (.add (imm 1) (imm 98) (pos 4)) := by decide
theorem witness_PlacedWordIsRun : decodeTableWord 16 1102 = some (.mul (imm 0) (imm 0) (pos 0)) := by decide

/-- V-SM1: the store into the next instruction's cell, fetched next; and, in the same memory, as a parameter of a word
one cell below. -/
theorem witness_StoreSeenByNextFetch :
    Reads (loaded [1101, 1, 98, 4, 0] []) (imm 1) 1 ∧ Reads (loaded [1101, 1, 98, 4, 0] []) (imm 98) 98 ∧
    Targets (loaded [1101, 1, 98, 4, 0] []) (pos 4) 4 ∧
    nextOf (exec (.add (imm 1) (imm 98) (pos 4)) (loaded [1101, 1, 98, 4, 0] [])) = some (loaded [1101, 1, 98, 4, 99] [] |>.advance 4) ∧
    (loaded [1101, 1, 98, 4, 99] [] |>.advance 4).ip = ((4 : Nat) : Int) ∧
    (loaded [1101, 1, 98, 4, 99] [] |>.advance 3).ip + ((1 : Nat) : Int) = ((4 : Nat) : Int) := by decide

/-- V-I13: the input becomes the next instruction; and the same from the default. -/
theorem witness_StoreSeenByNextFetch_input :
    (Targets (loaded [3, 2, 0] [99]) (pos 2) 2 ∧ (loaded [3, 2, 0] [99]).inq.head? = some 99 ∧
      nextOf (exec (.inp (pos 2)) (loaded [3, 2, 0] [99])) = some ((loaded [3, 2, 99] []).advance 2) ∧
      ((loaded [3, 2, 99] []).advance 2).ip = ((2 : Nat) : Int)) ∧
    ((loaded [3, 2, 0] [] |>.setDefault 99).inq = [] ∧ (loaded [3, 2, 0] [] |>.setDefault 99).defaultInput = some 99 ∧
      nextOf (exec (.inp (pos 2)) (loaded [3, 2, 0] [] |>.setDefault 99)) =
        some ((loaded [3, 2, 99] [] |>.setDefault 99).advance 2)) := by decide

theorem witness_OnlyJumpsLeaveSequence :
    nextOf (exec (.jnz (pos 5) (pos 7)) sample) = some { sample with ip := -1 } ∧
    nextOf (exec .hlt sample) = some { sample with terminated := true, ip := 1 } := by decide

/-- JNZ to a negative target; JZ to a target whose cell is 0, the last by the boundary address 0. -/
theorem witness_JumpTargetTakenAsIs :
    (Reads sample (pos 5) 10 ∧ Reads sample (pos 7) (-1) ∧ (10 : Int) ≠ 0 ∧ (-1 : Int) < 0) ∧
    (Reads sample (imm 0) 0 ∧ Reads sample (pos 8) 0 ∧ sample.mem.read (0 : Int).toNat = 0) ∧
    sample.fault = none ∧ sample.terminated = false := by decide

/-- The boundary: the relative target is address 0. -/
theorem witness_RelativeBaseRoundTrip : Reads sample (pos 5) 10 ∧ Reads sample (imm 2) 2 ∧ 0 ≤ sample.rb + (-4) := by decide

theorem witness_ResultIndependentOfMode :
    Reads sample (pos 5) 10 ∧ Reads sample (rel 1) 10 ∧ Reads sample (imm (-1)) (-1) ∧ Reads sample (pos 7) (-1) ∧
    Targets sample (pos 9) 9 ∧ Targets sample (rel 5) 9 := by decide

/-- No relative operand, an effect and a missing input; and the boundary of the second half, where ARB reads cell 0. -/
theorem witness_BaseUsedOnlyByRelativeOperands :
    (∀ o ∈ (Instr.arb (imm 3)).operands, o.mode ≠ .relative) ∧
    nextOf (exec (.arb (imm 3)) sample) = some { sample with rb := 7, ip := 2 } ∧
    (∀ o ∈ (Instr.inp (pos 3)).operands, o.mode ≠ .relative) ∧ (faultOf (exec (.inp (pos 3)) sample)).isSome = true ∧
    0 ≤ sample.rb + (-4) := by decide

/-- V-O4's image, run to its end. -/
theorem witness_StreamingEquivalence : (loaded [104, 1, 104, 2, 99] []).outq = [] ∧
    Returns false (loaded [104, 1, 104, 2, 99] []) .halted
      { loaded [104, 1, 104, 2, 99] [] with ip := 5, terminated := true, outq := [1, 2] } :=
  ⟨by decide, 4, by decide⟩

/-- A STEP entered with an older value in the queue. -/
theorem witness_StepDeliversItsOutput :
    Returns true { loaded [104, 2, 99] [] with outq := [1] } (.produced 2)
      { loaded [104, 2, 99] [] with outq := [1], ip := 2 } := ⟨1, by decide⟩

/-- Each result: Produced, Halted, a latched fault, a missing input. -/
theorem witness_ResultMatchesFinalState :
    Returns true (loaded [104, 2, 99] []) (.produced 2) { loaded [104, 2, 99] [] with ip := 2 } ∧
    Returns false (loaded [99] []) .halted halted ∧ Returns false State.reset (.fault unknownZero) faulted ∧
    Returns true (loaded [3, 0] []) (.fault ⟨.missingInputError, none, 0, some 3, none, none⟩) (loaded [3, 0] []) :=
  ⟨⟨1, by decide⟩, ⟨2, by decide⟩, ⟨1, by decide⟩, ⟨1, by decide⟩⟩

theorem witness_CallResultIsUnique : Returns false (loaded [99] []) .halted halted ∧
    drive false 1 (loaded [99] []) = .returned .halted halted :=
  ⟨⟨2, by decide⟩, by decide⟩

theorem witness_OutputQueueKeepsItsOrder :
    Returns false { loaded [104, 2, 99] [] with outq := [1] } .halted
      { loaded [104, 2, 99] [] with outq := [1, 2], ip := 3, terminated := true } ∧
    Returns true { loaded [104, 2, 99] [] with outq := [1] } (.produced 2)
      { loaded [104, 2, 99] [] with outq := [1], ip := 2 } := ⟨⟨2, by decide⟩, ⟨1, by decide⟩⟩

theorem witness_MissingInputIsRestartable :
    faultOf (step (loaded [203, 0] [])) = some (.missingInput ⟨.missingInputError, none, 0, some 203, none, none⟩) := by decide

/-- The invariant holds of a running core, and of the faulted one its step leads to. -/
theorem witness_StepKeepsInvariant : State.reset.Inv ∧ stepped State.reset = some faulted := by
  refine ⟨⟨by decide, by decide, fun r h => by cases h⟩, by decide⟩

theorem witness_CommandsKeepInvariant : State.reset.Inv ∧
    perform 1 .step State.reset = .done (.call (.fault unknownZero)) faulted := by
  refine ⟨⟨by decide, by decide, fun r h => by cases h⟩, by decide⟩

/-- One memory reached by two ways. -/
theorem witness_CanonicalMemoryIsItsReads : Memory.wf [(3, 1), (9, 2)] ∧
    Memory.wf (Memory.write (Memory.write (Memory.write [] 9 2) 5 4) 3 1 |>.write 5 0) ∧
    (Memory.write (Memory.write (Memory.write [] 9 2) 5 4) 3 1 |>.write 5 0) = [(3, 1), (9, 2)] := by decide

theorem witness_CoresAreIsolated :
    System.act 2 1 .run [sample, loaded [99] []] = some (.call .halted, [sample, halted]) ∧ (0 : Nat) ≠ 1 ∧
    ([halted, loaded [99] [], sample] : System)[1]? = ([sample, loaded [99] []] : System)[1]? := by decide

/-- From core 0 to core 1, and from a core to itself. -/
theorem witness_RelayMovesOneValue :
    System.relay 1 0 1 [loaded [104, 2] [], sample] =
      some (.call (.produced 2), [{ loaded [104, 2] [] with ip := 2 }, { sample with inq := [2] }]) ∧
    System.relay 1 0 0 [loaded [104, 2] [5]] =
      some (.call (.produced 2), [{ loaded [104, 2] [5, 2] with ip := 2 }]) := by decide

end Sys2Proof.Tests
end

section
/-! PROOFS. The statements of 20_memory.md: a store is seen by the next fetch (R43), and a relative operand acts as the
position operand of the cell it names (R46). -/

namespace Sys2Proof.Machine

variable {s t u : State} {o a b d : Operand}

/-! ### Fetching a named cell -/

theorem wordAt_of_ip_eq {n : Nat} (h : u.ip = n) : u.wordAt = some (u.mem.read n) := by
  simp [State.wordAt, h]

theorem param_of_address_eq {n k : Nat} (h : u.ip + k = n) : u.param k = u.mem.read n := by
  simp [State.param, h]

/-! ### What a storing instruction leaves in memory -/

/-- ADD, MUL, LT and EQ write `f x y` at the target and nothing else. -/
theorem storeResult_mem {f : Int → Int → Int} {x y : Int} {n : Nat} (ha : Reads s a x) (hb : Reads s b y)
    (hd : Targets s d n) (h : storeResult f a b d s = .next t) : t.mem = s.mem.write n (f x y) := by
  rw [storeResult_of_reads ha hb hd] at h
  cases h
  rfl

/-- The value taken is the front of the queue, or the default where the queue is empty, and memory stays (R87). -/
theorem popOrDefault_of_available {v : Int} (h : s.inq.head? = some v ∨ (s.inq = [] ∧ s.defaultInput = some v)) :
    ∃ w, popOrDefault s = .ok (v, w) ∧ w.mem = s.mem := by
  rcases popOrDefault_cases s with ⟨v', rest, hq, hp⟩ | ⟨v', hq, hdef, hp⟩ | ⟨hq, hdef, _⟩
  · obtain rfl : v' = v := by simpa [hq] using h
    exact ⟨_, hp, rfl⟩
  · obtain rfl : v' = v := by simpa [hq, hdef] using h
    exact ⟨_, hp, rfl⟩
  · simp [hq, hdef] at h

/-- IN writes the value it takes at the target and nothing else. -/
theorem exec_inp_mem {v : Int} {n : Nat} (hd : Targets s d n)
    (hv : s.inq.head? = some v ∨ (s.inq = [] ∧ s.defaultInput = some v)) (h : exec (.inp d) s = .next t) :
    t.mem = s.mem.write n v := by
  obtain ⟨w, hpop, hmem⟩ := popOrDefault_of_available hv
  have hexec : exec (.inp d) s = .next ((w.memWrite n v).advance 2) := by
    simp [exec, execInp, resolveTarget_of_targets hd, hpop]
  rw [hexec] at h
  cases h
  simp [hmem]

/-- Settles O42: each storing instruction leaves the memory `s.mem.write n v`, and a fetch reads it as any read does. -/
theorem storeSeenByNextFetch : Obligations.StoreSeenByNextFetch := by
  intro s t u a b d i x y v n ha hb hd hi hexec hu
  have hmem : t.mem = s.mem.write n v := by
    rcases hi with ⟨rfl, rfl⟩ | ⟨rfl, rfl⟩ | ⟨rfl, rfl⟩ | ⟨rfl, rfl⟩ | ⟨rfl, hv⟩
    · exact storeResult_mem ha hb hd hexec
    · exact storeResult_mem ha hb hd hexec
    · simpa [truth] using storeResult_mem (f := fun x y => truth (decide (x < y))) ha hb hd hexec
    · simpa [truth] using storeResult_mem (f := fun x y => truth (decide (x = y))) ha hb hd hexec
    · exact exec_inp_mem hd hv hexec
  have hread : u.mem.read n = v := by rw [hu, hmem, Memory.read_write_same]
  exact ⟨fun hip => hread ▸ wordAt_of_ip_eq hip, fun k hk => hread ▸ param_of_address_eq hk⟩

/-! ### Operands made absolute -/

@[simp] theorem effective_absolute (s : State) (o : Operand) : s.effective (o.absolute s.rb) = s.effective o := by
  obtain ⟨m, p⟩ := o
  cases m <;> rfl

@[simp] theorem mode_absolute_eq_immediate (r : Int) (o : Operand) :
    (o.absolute r).mode = .immediate ↔ o.mode = .immediate := by
  obtain ⟨m, p⟩ := o
  cases m <;> simp [Operand.absolute]

theorem absolute_of_immediate (r : Int) (h : o.mode = .immediate) : o.absolute r = o := by
  simp [Operand.absolute, h]

/-- Both operands form one address, and with it one value or one fault. -/
@[simp] theorem val_absolute (k : Nat) (o : Operand) (s : State) : val k (o.absolute s.rb) s = val k o s := by
  by_cases hm : o.mode = .immediate
  · rw [absolute_of_immediate _ hm]
  · obtain ⟨e, he⟩ := Option.ne_none_iff_exists'.mp (mt effective_eq_none.mp hm : s.effective o ≠ none)
    simp [val_eq, he]

@[simp] theorem addr_absolute (k : Nat) (o : Operand) (s : State) : addr k (o.absolute s.rb) s = addr k o s := by
  simp [addr_eq]

@[simp] theorem checkTarget_absolute (k : Nat) (o : Operand) (s : State) :
    checkTarget k (o.absolute s.rb) s = checkTarget k o s := by
  simp [checkTarget]

@[simp] theorem resolveTarget_absolute (d : Operand) (s : State) :
    resolveTarget (d.absolute s.rb) s = resolveTarget d s := by
  simp [resolveTarget]

@[simp] theorem storeResult_absolute (f : Int → Int → Int) (a b d : Operand) (s : State) :
    storeResult f (a.absolute s.rb) (b.absolute s.rb) (d.absolute s.rb) s = storeResult f a b d s := by
  simp [storeResult, resolveStore]

@[simp] theorem jumpWhen_absolute (p : Int → Bool) (c g : Operand) (s : State) :
    jumpWhen p (c.absolute s.rb) (g.absolute s.rb) s = jumpWhen p c g s := by
  simp [jumpWhen, resolvePair]

/-- An instruction resolves its operands through `rb` once, at its start, so naming the cells beforehand changes
nothing, the faults included. -/
theorem exec_absolute (i : Instr) (s : State) : exec (i.absolute s.rb) s = exec i s := by
  cases i with
  | add a b d => simp [Instr.absolute, exec, execAdd]
  | mul a b d => simp [Instr.absolute, exec, execMul]
  | lt a b d => simp [Instr.absolute, exec, execLt]
  | eq a b d => simp [Instr.absolute, exec, execEq]
  | jnz c g => simp [Instr.absolute, exec, execJnz]
  | jz c g => simp [Instr.absolute, exec, execJz]
  | inp d => simp [Instr.absolute, exec, execInp]
  | out a => simp [Instr.absolute, exec, execOut]
  | arb a => simp [Instr.absolute, exec, execArb]
  | hlt => rfl

/-! ### Reading back what was written -/

theorem Targets.reads {n : Nat} (h : Targets s o n) : Reads s o (s.mem.read n) :=
  reads_iff.mpr (.inr ⟨n, h, by simp⟩)

/-- An operand that names cell `n` reads what was just written there: it is resolved through the same `rb`. -/
theorem Targets.reads_after_write {n : Nat} (h : Targets s o n) (v : Int) (k : Nat) :
    Reads ((s.memWrite n v).advance k) o v := by
  have hn : Targets ((s.memWrite n v).advance k) o n := h
  simpa using hn.reads

/-- Settles O45: the first half is `exec_absolute`; in the second both forms of the target name one cell, so both ADDs
give one state, in which both forms read the sum. -/
theorem relativeBaseRoundTrip : Obligations.RelativeBaseRoundTrip := by
  refine ⟨fun s i => exec_absolute i s, fun s a b x y p ha hb hp => ?_⟩
  have hrel : Targets s ⟨.relative, p⟩ (s.rb + p).toNat := by simp [Targets, State.effective, hp]
  have hpos : Targets s ⟨.position, s.rb + p⟩ (s.rb + p).toNat := by simp [Targets, State.effective, hp]
  exact ⟨_, storeResult_of_reads ha hb hrel, storeResult_of_reads ha hb hpos,
    hrel.reads_after_write _ 4, hpos.reads_after_write _ 4⟩

end Sys2Proof.Machine
end

section
/-! PROOFS. The statements of 30_encoding.md: which fault refuses a word (R53, R56, R68), the mode digits an opcode has no
parameter for (R57), and that a mode only delivers its operand (R66). -/

namespace Sys2Proof

/-! ### A word as its opcode and the number above it -/

@[simp] theorem digit_zero (k : Nat) : digit 0 k = 0 := by simp [digit]

/-- A word up to 99 has only zeros above its low two digits, so the mode digits need no case for it. -/
theorem modesValid_iff (w : Int) : ModesValid w ↔ ∀ k ≥ 1, digit (w.toNat / 100) k ≤ 2 := by
  refine or_iff_right_of_imp fun hw k _ => ?_
  simp [show w.toNat / 100 = 0 by omega]

theorem not_modesValid_iff (w : Int) : ¬ ModesValid w ↔ 100 ≤ w ∧ ∃ k ≥ 1, 3 ≤ digit (w.toNat / 100) k := by
  rw [ModesValid, not_or, show ¬ w ≤ 99 ↔ 100 ≤ w by omega]
  simp [Nat.lt_iff_add_one_le]

theorem modeDigit_eq (w : Int) (k : Nat) : modeDigit w k = digit (w.toNat / 100) k := by
  unfold modeDigit
  split
  · next hw => simp [show w.toNat / 100 = 0 by omega]
  · rfl

section
variable {c : Nat} (n : Nat) (hc : c < 100)
include hc

theorem toNat_word_div : ((c + 100 * n : Nat) : Int).toNat / 100 = n := by omega

theorem opcodeOf_word : opcodeOf ((c + 100 * n : Nat) : Int) = c := by
  unfold opcodeOf
  split <;> omega

theorem modesValid_word : ModesValid ((c + 100 * n : Nat) : Int) ↔ ∀ k ≥ 1, digit n k ≤ 2 := by
  rw [modesValid_iff, toNat_word_div n hc]

theorem modeDigit_word (k : Nat) : modeDigit ((c + 100 * n : Nat) : Int) k = digit n k := by
  rw [modeDigit_eq, toNat_word_div n hc]

end

/-! ### The opcode numbers -/

theorem code_lt_hundred (op : Opcode) : op.code < 100 := by cases op <;> decide

theorem code_injective {op op' : Opcode} (h : op.code = op'.code) : op = op' := by
  have hop := ofCode_code op
  rwa [h, ofCode_code, Option.some_inj, eq_comm] at hop

/-- The opcode numbers are 1 to 9 and 99 (R64). -/
theorem ne_code_iff (c : Int) : (∀ op : Opcode, c ≠ op.code) ↔ c ≤ 0 ∨ (10 ≤ c ∧ c ≤ 98) ∨ 100 ≤ c := by
  constructor
  · intro h
    have h1 := h .add; have h2 := h .mul; have h3 := h .inp; have h4 := h .out; have h5 := h .jnz
    have h6 := h .jz; have h7 := h .lt; have h8 := h .eq; have h9 := h .arb; have h99 := h .hlt
    simp only [Opcode.code] at h1 h2 h3 h4 h5 h6 h7 h8 h9 h99
    omega
  · intro h op
    cases op <;> simp only [Opcode.code] <;> omega

/-! ### Which fault refuses a word -/

theorem decodeHead_eq_invalidMode_iff (w : Int) : decodeHead w = .error .invalidMode ↔ ¬ ModesValid w := by
  rcases decodeHead_cases w with ⟨hv, h⟩ | ⟨hv, _, h⟩ | ⟨hv, _, _, _, _, _, h⟩ | ⟨hv, _, _, _, _, h⟩ <;> simp [h, hv]

theorem decodeHead_eq_unknownOpcode_iff (w : Int) :
    decodeHead w = .error .unknownOpcode ↔ ModesValid w ∧ ∀ op : Opcode, opcodeOf w ≠ op.code := by
  rcases decodeHead_cases w with ⟨hv, h⟩ | ⟨hv, hop, h⟩ | ⟨_, _, _, hop, _, _, h⟩ | ⟨_, _, hop, _, _, h⟩
  · simp [h, hv]
  · simp [h, hv, hop]
  · simp [h, hop]
  · simp [h, hop]

/-- Settles O12: a word up to 99 takes the decoder's first branch, and no row has an opcode up to 0. -/
theorem smallWordsAreTheirOwnOpcode : Obligations.SmallWordsAreTheirOwnOpcode := by
  refine ⟨fun w hw => if_pos hw, fun w hw => (decodeHead_eq_unknownOpcode_iff w).mpr ⟨.inl (by omega), ?_⟩⟩
  have hop : opcodeOf w = w := if_pos (by omega)
  rw [hop]
  exact (ne_code_iff w).mpr (.inl hw)

/-- Settles O13: InvalidMode comes before every other fault (R69), so it is reported exactly where `ModesValid` fails. -/
theorem invalidModeExactly : Obligations.InvalidModeExactly :=
  ⟨fun w => (decodeHead_eq_invalidMode_iff w).trans (not_modesValid_iff w), by decide, by decide, by decide⟩

/-- Settles O14: the opcode is the word itself up to 99 and the low two digits above, and the rows have 1 to 9 and 99. -/
theorem unknownOpcodeExactly : Obligations.UnknownOpcodeExactly := by
  intro w
  rw [decodeHead_eq_unknownOpcode_iff, ne_code_iff]
  by_cases hw : w ≤ 99
  · have hv : ModesValid w := .inl hw
    have hop : opcodeOf w = w := if_pos hw
    simp only [hv, hop, true_and]
    omega
  · have hop : opcodeOf w = w % 100 := if_neg hw
    rw [modesValid_iff, hop]
    constructor
    · rintro ⟨hv, h⟩
      exact .inr (.inr ⟨by omega, hv, by omega⟩)
    · rintro (h | h | ⟨_, hv, h⟩)
      · omega
      · omega
      · exact ⟨hv, by omega⟩

/-! ### Digits above the last parameter's -/

theorem digit_one_add_ten_mul {d : Nat} (q : Nat) (h : d < 10) : digit (d + 10 * q) 1 = d := by
  simp only [digit, Nat.sub_self, Nat.pow_zero, Nat.div_one]
  omega

theorem digit_succ_add_ten_mul {d : Nat} (q j : Nat) (h : d < 10) : digit (d + 10 * q) (j + 2) = digit q (j + 1) := by
  have hq : (d + 10 * q) / 10 = q := by omega
  simp only [digit, Nat.add_one_sub_one, Nat.pow_succ', ← Nat.div_div_eq_div_mul, hq]

/-- With `e` put above the mode number of `os`, each operand's place holds its mode's digit, and the places above hold the
digits of `e`. -/
theorem digit_modeNumber_add (os : List Operand) (e : Nat) {k : Nat} (hk : 1 ≤ k) :
    digit (modeNumber os + 10 ^ os.length * e) k =
      (os[k - 1]?.map (·.mode.digit)).getD (digit e (k - os.length)) := by
  obtain ⟨j, rfl⟩ := Nat.exists_eq_add_of_le' hk
  induction os generalizing j with
  | nil => simp [modeNumber]
  | cons o os ih =>
    have hlt : o.mode.digit < 10 := by have := Laws.WordShape.digit_le_two o.mode; omega
    have hnum : modeNumber (o :: os) + 10 ^ (o :: os).length * e =
        o.mode.digit + 10 * (modeNumber os + 10 ^ os.length * e) := by
      simp only [modeNumber, List.length_cons]; ring
    rw [hnum]
    cases j with
    | zero => simp [digit_one_add_ten_mul _ hlt]
    | succ j => simpa [digit_succ_add_ten_mul _ _ hlt] using ih j (by omega)

theorem digit_modeNumber_add_le_two (os : List Operand) {e k : Nat} (he : ∀ k ≥ 1, digit e k ≤ 2) (hk : 1 ≤ k) :
    digit (modeNumber os + 10 ^ os.length * e) k ≤ 2 := by
  rw [digit_modeNumber_add os e hk]
  cases ho : os[k - 1]? with
  | some o => exact Laws.WordShape.digit_le_two o.mode
  | none =>
    have hlen : os.length ≤ k - 1 := List.getElem?_eq_none_iff.mp ho
    exact he _ (by omega)

theorem encodeWord_add_surplus (i : Instr) (e : Nat) :
    encodeWord i + 10 ^ (2 + i.opcode.arity) * e =
      i.opcode.code + 100 * (modeNumber i.operands + 10 ^ i.operands.length * e) := by
  rw [encodeWord, operands_length]; ring

/-! ### Decoding by the digits -/

/-- The write target of the table is an operand of the instruction (R63). -/
theorem exists_target_operand {i : Instr} {k : Nat} (h : i.opcode.writeParam = some k) :
    1 ≤ k ∧ ∃ o, i.operands[k - 1]? = some o := by
  cases i <;> cases h <;> exact ⟨by decide, _, rfl⟩

/-- A head with `i`'s opcode gives `i` where every operand of `i` has the mode and the value at its place. -/
theorem head_instr_eq {h : Head} {param : Nat → Int} {i : Instr} (hop : h.op = i.opcode)
    (hops : ∀ k ≥ 1, ∀ o, i.operands[k - 1]? = some o → modeOf h.modes k = o.mode ∧ param k = o.param) :
    h.instr param = i := by
  refine instr_ext ((instr_opcode h param).trans hop) (List.ext_getElem ?_ fun j _ hj => ?_)
  · rw [operands_length, operands_length, instr_opcode, hop]
  · obtain ⟨hm, hp⟩ := hops (j + 1) (by omega) _ (List.getElem?_eq_getElem hj)
    simp only [instr_operands, List.getElem_map, List.getElem_range, Head.operand, hm, hp]

/-- A word decodes to the well-formed `i` if its opcode is `i`'s, each of its digits is a mode's, and every operand of `i`
has the mode of its digit and the value of its cell. -/
theorem decode_eq_ok {w : Int} {param : Nat → Int} {i : Instr} (hwf : i.wellFormed = true) (hv : ModesValid w)
    (hop : opcodeOf w = i.opcode.code)
    (hops : ∀ k ≥ 1, ∀ o, i.operands[k - 1]? = some o → modeDigit w k = o.mode.digit ∧ param k = o.param) :
    decode w param = .ok i := by
  have same_op {op : Opcode} (h : opcodeOf w = op.code) : op = i.opcode :=
    code_injective (by exact_mod_cast h.symm.trans hop)
  rcases decodeHead_cases w with ⟨hv', _⟩ | ⟨_, hno, _⟩ | ⟨_, op, k, hcode, hk, himm, _⟩ | ⟨_, h, hcode, _, hmode, hd⟩
  · exact absurd hv hv'
  · exact absurd hop (hno i.opcode)
  · obtain rfl := same_op hcode
    obtain ⟨hk1, o, ho⟩ := exists_target_operand hk
    have him : o.mode = .immediate := digit_injective ((hops k hk1 o ho).1.symm.trans himm)
    exact absurd him ((wellFormed_iff i).mp hwf k o hk ho)
  · have hi : h.instr param = i := by
      refine head_instr_eq (same_op hcode) fun k hk o ho => ?_
      obtain ⟨hm, hp⟩ := hops k hk o ho
      exact ⟨digit_injective ((hmode k hk).trans hm), hp⟩
    simp only [decode, hd, hi]

/-- The word of `i` with digits 0 to 2 put above its last mode digit decodes to `i`, whatever cells follow the
parameters. -/
theorem decode_encodeWord_add_surplus {i : Instr} {e : Nat} {param : Nat → Int} (hwf : i.wellFormed = true)
    (he : ∀ k ≥ 1, digit e k ≤ 2) (hparam : ∀ k ≥ 1, ∀ o, i.operands[k - 1]? = some o → param k = o.param) :
    decode ((encodeWord i + 10 ^ (2 + i.opcode.arity) * e : Nat) : Int) param = .ok i := by
  have hcode := code_lt_hundred i.opcode
  rw [encodeWord_add_surplus]
  refine decode_eq_ok hwf ?_ (opcodeOf_word _ hcode) fun k hk o ho => ⟨?_, hparam k hk o ho⟩
  · exact (modesValid_word _ hcode).mpr fun k hk => digit_modeNumber_add_le_two _ he hk
  · rw [modeDigit_word _ hcode, digit_modeNumber_add _ _ hk, ho]
    rfl

/-- Cell `k` of an encoded instruction is parameter `k` (R50). -/
theorem encode_getD {i : Instr} {k : Nat} (hk : 1 ≤ k) {o : Operand} (ho : i.operands[k - 1]? = some o) :
    (encode i).getD k 0 = o.param := by
  obtain ⟨j, rfl⟩ := Nat.exists_eq_add_of_le' hk
  rw [Nat.add_one_sub_one] at ho
  simp [encode, ho]

/-- Settles O17: the surplus digits are valid modes and stand at no operand's place. -/
theorem surplusDigitsIgnored : Obligations.SurplusDigitsIgnored :=
  ⟨fun _ _ hwf he => decode_encodeWord_add_surplus hwf he fun _ hk _ ho => encode_getD hk ho,
    fun _ => rfl, fun _ => ⟨rfl, rfl⟩, fun _ => rfl⟩

end Sys2Proof

namespace Sys2Proof.Machine

/-! ### Modes only deliver operands -/

section
variable {s : State} {a a' b b' d d' : Operand} {x y : Int} {n : Nat}

theorem val_congr (k : Nat) (ha : Reads s a x) (ha' : Reads s a' x) : val k a s = val k a' s := by
  rw [val_of_reads ha, val_of_reads ha']

theorem resolveTarget_congr (hd : Targets s d n) (hd' : Targets s d' n) : resolveTarget d s = resolveTarget d' s := by
  rw [resolveTarget_of_targets hd, resolveTarget_of_targets hd']

theorem storeResult_congr (f : Int → Int → Int) (ha : Reads s a x) (ha' : Reads s a' x) (hb : Reads s b y)
    (hb' : Reads s b' y) (hd : Targets s d n) (hd' : Targets s d' n) :
    storeResult f a b d s = storeResult f a' b' d' s := by
  rw [storeResult_of_reads ha hb hd, storeResult_of_reads ha' hb' hd']

theorem jumpWhen_congr (p : Int → Bool) (ha : Reads s a x) (ha' : Reads s a' x) (hb : Reads s b y)
    (hb' : Reads s b' y) : jumpWhen p a b s = jumpWhen p a' b' s := by
  rw [jumpWhen_of_reads ha hb, jumpWhen_of_reads ha' hb']

end

/-- Settles O46: each instruction sees its operands only through the four shapes of resolving, and each shape's answer is
a function of the values and the address. -/
theorem resultIndependentOfMode : Obligations.ResultIndependentOfMode := by
  intro s a a' b b' d d' x y n ha ha' hb hb' hd hd'
  have store := fun f => storeResult_congr f ha ha' hb hb' hd hd'
  have jump := fun p => jumpWhen_congr p ha ha' hb hb'
  have source := val_congr 1 ha ha'
  have target := resolveTarget_congr hd hd'
  refine ⟨?add, ?mul, ?lt, ?eq, ?inp, ?out, ?jnz, ?jz, ?arb⟩
  case add => simp only [exec, execAdd, store]
  case mul => simp only [exec, execMul, store]
  case lt => simp only [exec, execLt, store]
  case eq => simp only [exec, execEq, store]
  case inp => simp only [exec, execInp, target]
  case out => simp only [exec, execOut, source]
  case jnz => simp only [exec, execJnz, jump]
  case jz => simp only [exec, execJz, jump]
  case arb => simp only [exec, execArb, source]

end Sys2Proof.Machine
end

section
/-! PROOFS. The statements of 41_input_output.md: IN takes the front of the queue, else the default, else reports a missing
input (R87), and an IN that found none executes again once the host has supplied one (R88). -/

namespace Sys2Proof.Machine

/-! ### The three outcomes of an IN whose target can be written -/

section
variable {s : State} {d : Operand} {n : Nat}

theorem exec_inp_of_popOrDefault {v : Int} {w : State} (hd : Targets s d n) (hp : popOrDefault s = .ok (v, w)) :
    exec (.inp d) s = .next ((w.memWrite n v).advance 2) := by
  simp [exec, execInp, resolveTarget_of_targets hd, hp]

theorem exec_inp_of_queue {v : Int} {rest : List Int} (hd : Targets s d n) (hq : s.inq = v :: rest) :
    exec (.inp d) s = .next { s with mem := s.mem.write n v, ip := s.ip + 2, inq := rest } :=
  exec_inp_of_popOrDefault (w := { s with inq := rest }) hd (by simp [popOrDefault, hq])

theorem exec_inp_of_default {v : Int} (hd : Targets s d n) (hq : s.inq = []) (hv : s.defaultInput = some v) :
    exec (.inp d) s = .next { s with mem := s.mem.write n v, ip := s.ip + 2 } :=
  exec_inp_of_popOrDefault hd (by simp [popOrDefault, hq, hv])

theorem exec_inp_of_missing (hd : Targets s d n) (hq : s.inq = []) (hv : s.defaultInput = none) :
    exec (.inp d) s = .fault (.missingInput s.inputError) := by
  simp [exec, execInp, resolveTarget_of_targets hd, popOrDefault, hq, hv]

end

/-- Settles O21: one equation of `exec` for each of the three cases, and a read after the one write. -/
theorem inputFromQueueThenDefault : Obligations.InputFromQueueThenDefault := by
  intro s d n hd
  refine ⟨fun v rest hq => ?queue, fun v hq hv => ?default, fun hq hv => ?missing⟩
  case queue => exact ⟨_, exec_inp_of_queue hd hq, fun c => s.mem.read_write n c v⟩
  case default => exact ⟨_, exec_inp_of_default hd hq hv, fun c => s.mem.read_write n c v⟩
  case missing => exact ⟨_, exec_inp_of_missing hd hq hv, rfl⟩

/-! ### A step that misses its input, and the same step with an input -/

section
variable {s : State} {r : FaultRecord}

/-- Only a running core whose instruction is an IN with a writable target and an empty queue misses an input. -/
theorem step_missingInput (h : step s = .fault (.missingInput r)) :
    atRest s = none ∧ s.inq = [] ∧ ∃ d n, fetchInstr s = .ok (.inp d) ∧ Targets s d n := by
  have hrest : atRest s = none := by
    rcases step_cases s with ⟨q, _, hs⟩ | ⟨_, _, hs⟩ | ⟨hf, ht, _⟩
    · simp [hs] at h
    · simp [hs] at h
    · exact atRest_eq_none.mpr ⟨hf, ht⟩
  rcases step_running hrest with ⟨q, _, _, hs⟩ | ⟨d, n, hi, hq, _, hn, _⟩ | ⟨i, t, _, _, hs⟩
  · simp [hs] at h
  · exact ⟨hrest, hq, d, n, hi, hn⟩
  · simp [hs] at h

theorem driveOnce_of_missingInput (b : Bool) (h : step s = .fault (.missingInput r)) :
    driveOnce b s = .returned (.fault r) s := by
  simp [driveOnce, (step_missingInput h).1, h]

theorem step_of_fetchInstr {i : Instr} (hrest : atRest s = none) (hi : fetchInstr s = .ok i) : step s = exec i s := by
  obtain ⟨hf, ht⟩ := atRest_eq_none.mp hrest
  simp [step, hf, ht, hi]

theorem status_of_atRest_eq_none (hrest : atRest s = none) : s.status = .running := by
  obtain ⟨hf, ht⟩ := atRest_eq_none.mp hrest
  simp [State.status, hf, ht]

end

/-- Fetching sees neither the input queue nor the default: an input supplied by the host leaves the instruction as it
is. -/
theorem fetchInstr_inq (s : State) (q : List Int) : fetchInstr { s with inq := q } = fetchInstr s := rfl

theorem fetchInstr_defaultInput (s : State) (e : Option Int) :
    fetchInstr { s with defaultInput := e } = fetchInstr s := rfl

/-- Settles O53: the step can only be an IN's with an empty queue (`step_missingInput`). The supplied input changes
neither the fetched instruction nor its target, so the next step is that IN with an input. -/
theorem missingInputIsRestartable : Obligations.MissingInputIsRestartable := by
  intro s r h
  obtain ⟨hrest, hq, d, n, hi, hd⟩ := step_missingInput h
  refine ⟨status_of_atRest_eq_none hrest, hq, fun b fuel => ?calls, d, n, hi, hd, fun v => ⟨?queue, ?default⟩⟩
  case calls => simp [drive, driveOnce_of_missingInput b h]
  case queue =>
    refine ⟨s.mem.write n v, ?_, fun c => s.mem.read_write n c v⟩
    calc step { s with inq := [v] }
      _ = exec (.inp d) { s with inq := [v] } := step_of_fetchInstr hrest ((fetchInstr_inq s [v]).trans hi)
      _ = .next { s with mem := s.mem.write n v, ip := s.ip + 2, inq := [] } := exec_inp_of_queue hd rfl
      _ = .next { s with mem := s.mem.write n v, ip := s.ip + 2 } := by rw [hq]
  case default =>
    refine ⟨s.mem.write n v, ?_, fun c => s.mem.read_write n c v⟩
    calc step { s with defaultInput := some v }
      _ = exec (.inp d) { s with defaultInput := some v } :=
        step_of_fetchInstr hrest ((fetchInstr_defaultInput s (some v)).trans hi)
      _ = .next { s with mem := s.mem.write n v, ip := s.ip + 2, defaultInput := some v } :=
        exec_inp_of_default hd hq rfl

end Sys2Proof.Machine
end

section
/-! PROOFS. The statement of 42_jumps.md: a taken jump writes any integer to `ip`, and what stands there is the next
fetch's question (R92). -/

namespace Sys2Proof.Machine

variable {s : State}

/-! ### A taken jump -/

theorem exec_jnz_of_taken {c g : Operand} {x y : Int} (hc : Reads s c x) (hg : Reads s g y) (hx : x ≠ 0) :
    exec (.jnz c g) s = .next (s.jumpTo y) := by
  simp [exec, execJnz, jumpWhen_of_reads hc hg, hx]

theorem exec_jz_of_taken {c g : Operand} {y : Int} (hc : Reads s c 0) (hg : Reads s g y) :
    exec (.jz c g) s = .next (s.jumpTo y) := by
  simp [exec, execJz, jumpWhen_of_reads hc hg]

/-! ### Fetching where a jump has led -/

theorem wordAt_of_negative (h : s.ip < 0) : s.wordAt = none := if_pos h

theorem wordAt_of_nonneg (h : 0 ≤ s.ip) : s.wordAt = some (s.mem.read s.ip.toNat) := if_neg (not_lt.mpr h)

theorem fetchInstr_of_negative (h : s.ip < 0) : fetchInstr s = .error s.fetchError := by
  simp [fetchInstr, wordAt_of_negative h]

/-- A word refused by its head is refused whatever its parameter cells hold. -/
theorem fetchInstr_of_decodeHead_error {e : DecodeFault} (hip : 0 ≤ s.ip)
    (h : decodeHead (s.mem.read s.ip.toNat) = .error e) : fetchInstr s = .error (s.decodeError e) := by
  simp [fetchInstr, wordAt_of_nonneg hip, decode, h]

/-! ### A step that cannot fetch or decode -/

section
variable (hf : s.fault = none) (ht : s.terminated = false)
include hf ht

/-- A running core latches the record of a fault that fetching or decoding raises. -/
theorem step_of_fetchInstr_error {r : FaultRecord} (h : fetchInstr s = .error r) : step s = .next (s.latch r) := by
  rcases step_cases s with ⟨q, hq, _⟩ | ⟨_, ht', _⟩ | ⟨_, _, ⟨q, hq, _, _, hs⟩ | ⟨i, hi, _⟩⟩
  · simp [hf] at hq
  · simp [ht] at ht'
  · obtain rfl : r = q := by simpa [h] using hq
    exact hs
  · simp [h] at hi

/-- Below address 0 there is no word, and the record's address is `ip` itself (R35, R152). -/
theorem step_of_negative_ip (hip : s.ip < 0) :
    step s = .next (s.latch ⟨.addressError, some .fetch, s.ip, none, some s.ip, none⟩) := by
  simpa [State.fetchError, State.record, wordAt_of_negative hip] using
    step_of_fetchInstr_error hf ht (fetchInstr_of_negative hip)

/-- A cell of 0 is a word that no row of the table has (R53). -/
theorem step_of_zero_word (hip : 0 ≤ s.ip) (hzero : s.mem.read s.ip.toNat = 0) :
    step s = .next (s.latch ⟨.decodeError, some .unknownOpcode, s.ip, some 0, none, none⟩) := by
  have hhead : decodeHead (s.mem.read s.ip.toNat) = .error .unknownOpcode :=
    smallWordsAreTheirOwnOpcode.2 _ hzero.le
  simpa [State.decodeError, State.record, wordAt_of_nonneg hip, hzero] using
    step_of_fetchInstr_error hf ht (fetchInstr_of_decodeHead_error hip hhead)

end

/-- Settles O44: the jump itself reads no cell at the target, so a bad target is met by the step after it. -/
theorem jumpTargetTakenAsIs : Obligations.JumpTargetTakenAsIs := by
  intro s i c g x y hc hg hi
  refine ⟨?jump, fun hf ht => ⟨fun hneg => ?negative, fun hnn hzero => ?zero⟩⟩
  case jump =>
    rcases hi with ⟨rfl, hx⟩ | ⟨rfl, rfl⟩
    · exact exec_jnz_of_taken hc hg hx
    · exact exec_jz_of_taken hc hg
  case negative => exact step_of_negative_ip (s := s.jumpTo y) hf ht hneg
  case zero => exact step_of_zero_word (s := s.jumpTo y) hf ht hnn hzero

end Sys2Proof.Machine
end

section
/-! PROOFS. The statement of 44_relative_base.md: moving `rb` by `z` before an instruction without a relative operand moves
it by `z` after it and changes nothing else, so executing commutes with `State.adjustBase` (R101). -/

namespace Sys2Proof.Machine

/-- The outcome with `z` added to `rb` of its next state, and its fault or refusal as it is. -/
def outcomeAdjustBase (z : Int) : Host.Outcome State Fault Refusal → Host.Outcome State Fault Refusal
  | .next t => .next (t.adjustBase z)
  | .fault f => .fault f
  | .refused q => .refused q

section
variable {s : State} {a b c d g : Operand} (z : Int)

/-! ### Resolving an operand that is not relative -/

theorem effective_adjustBase (h : a.mode ≠ .relative) : (s.adjustBase z).effective a = s.effective a := by
  obtain ⟨m, p⟩ := a
  cases m with
  | position => rfl
  | immediate => rfl
  | relative => exact absurd rfl h

theorem val_adjustBase (k : Nat) (h : a.mode ≠ .relative) : val k a (s.adjustBase z) = val k a s := by
  rw [val_eq, val_eq, effective_adjustBase z h]
  rfl

theorem addr_adjustBase (k : Nat) (h : d.mode ≠ .relative) : addr k d (s.adjustBase z) = addr k d s := by
  rw [addr_eq, addr_eq, effective_adjustBase z h]
  rfl

theorem checkTarget_adjustBase (k : Nat) (d : Operand) (s : State) :
    checkTarget k d (s.adjustBase z) = checkTarget k d s := rfl

theorem resolveStore_adjustBase (h : ∀ o ∈ [a, b, d], o.mode ≠ .relative) :
    resolveStore a b d (s.adjustBase z) = resolveStore a b d s := by
  simp only [resolveStore, checkTarget_adjustBase, val_adjustBase z 1 (h a (by simp)),
    val_adjustBase z 2 (h b (by simp)), addr_adjustBase z 3 (h d (by simp))]

theorem resolvePair_adjustBase (h : ∀ o ∈ [c, g], o.mode ≠ .relative) :
    resolvePair c g (s.adjustBase z) = resolvePair c g s := by
  simp only [resolvePair, val_adjustBase z 1 (h c (by simp)), val_adjustBase z 2 (h g (by simp))]

theorem resolveTarget_adjustBase (h : d.mode ≠ .relative) :
    resolveTarget d (s.adjustBase z) = resolveTarget d s := by
  simp only [resolveTarget, checkTarget_adjustBase, addr_adjustBase z 1 h]

/-! ### The operations that take or give a state -/

theorem adjustBase_comm (s : State) (v : Int) : (s.adjustBase z).adjustBase v = (s.adjustBase v).adjustBase z := by
  simp [State.adjustBase, add_right_comm]

theorem popOrDefault_adjustBase (s : State) :
    popOrDefault (s.adjustBase z) = (popOrDefault s).map (Prod.map id (State.adjustBase · z)) := by
  rcases popOrDefault_cases s with ⟨v, rest, hq, hp⟩ | ⟨v, hq, hv, hp⟩ | ⟨hq, hv, hp⟩
  · rw [hp]; simp [popOrDefault, hq, State.adjustBase, Except.map]
  · rw [hp]; simp [popOrDefault, hq, hv, Except.map]
  · have hrec : (s.adjustBase z).inputError = s.inputError := rfl
    rw [hp]; simp [popOrDefault, hq, hv, hrec, Except.map]

/-- Raising writes at most the latch, and a record says nothing of `rb`. -/
theorem raise_adjustBase (r : FaultRecord) (s : State) :
    raise r (s.adjustBase z) = outcomeAdjustBase z (raise r s) := by
  unfold raise
  split
  · rfl
  · rfl

/-- A computation that does not see `rb` raises alike where it fails, so only what follows it has to commute. -/
theorem settle_bind_adjustBase {α : Type} {k k' : α → Except FaultRecord State} (e : Except FaultRecord α)
    (h : ∀ x, settle (s.adjustBase z) (k' x) = outcomeAdjustBase z (settle s (k x))) :
    settle (s.adjustBase z) (e >>= k') = outcomeAdjustBase z (settle s (e >>= k)) := by
  cases e with
  | ok x => exact h x
  | error r => exact raise_adjustBase z r s

/-! ### Executing -/

theorem storeResult_adjustBase (f : Int → Int → Int) (h : ∀ o ∈ [a, b, d], o.mode ≠ .relative) :
    storeResult f a b d (s.adjustBase z) = outcomeAdjustBase z (storeResult f a b d s) := by
  unfold storeResult
  rw [resolveStore_adjustBase z h]
  exact settle_bind_adjustBase z _ fun _ => rfl

theorem jumpWhen_adjustBase (p : Int → Bool) (h : ∀ o ∈ [c, g], o.mode ≠ .relative) :
    jumpWhen p c g (s.adjustBase z) = outcomeAdjustBase z (jumpWhen p c g s) := by
  unfold jumpWhen
  rw [resolvePair_adjustBase z h]
  refine settle_bind_adjustBase z _ fun ⟨x, y⟩ => ?_
  cases hx : p x with
  | true => simp only [hx]; rfl
  | false => simp only [hx]; rfl

theorem execInp_adjustBase (h : d.mode ≠ .relative) :
    execInp d (s.adjustBase z) = outcomeAdjustBase z (execInp d s) := by
  unfold execInp
  rw [resolveTarget_adjustBase z h, popOrDefault_adjustBase]
  refine settle_bind_adjustBase z _ fun n => ?_
  cases popOrDefault s with
  | ok p => rfl
  | error r => exact raise_adjustBase z r s

theorem execOut_adjustBase (h : a.mode ≠ .relative) :
    execOut a (s.adjustBase z) = outcomeAdjustBase z (execOut a s) := by
  unfold execOut
  rw [val_adjustBase z 1 h]
  exact settle_bind_adjustBase z _ fun _ => rfl

/-- Both additions to `rb` are made, and their order does not matter. -/
theorem execArb_adjustBase (h : a.mode ≠ .relative) :
    execArb a (s.adjustBase z) = outcomeAdjustBase z (execArb a s) := by
  unfold execArb
  rw [val_adjustBase z 1 h]
  refine settle_bind_adjustBase z _ fun v => ?_
  rw [adjustBase_comm]
  rfl

/-- An instruction without a relative operand answers a moved `rb` with the same outcome, `rb` moved. -/
theorem exec_adjustBase (i : Instr) (s : State) (h : ∀ o ∈ i.operands, o.mode ≠ .relative) :
    exec i (s.adjustBase z) = outcomeAdjustBase z (exec i s) := by
  cases i with
  | add a b d => exact storeResult_adjustBase z (fun x y => x + y) h
  | mul a b d => exact storeResult_adjustBase z (fun x y => x * y) h
  | lt a b d => exact storeResult_adjustBase z (fun x y => truth (decide (x < y))) h
  | eq a b d => exact storeResult_adjustBase z (fun x y => truth (decide (x = y))) h
  | jnz c g => exact jumpWhen_adjustBase z (fun x => decide (x ≠ 0)) h
  | jz c g => exact jumpWhen_adjustBase z (fun x => decide (x = 0)) h
  | inp d => exact execInp_adjustBase z (h d (.head _))
  | out a => exact execOut_adjustBase z (h a (.head _))
  | arb a => exact execArb_adjustBase z (h a (.head _))
  | hlt => rfl

end

theorem exec_arb_of_reads {s : State} {a : Operand} {x : Int} (h : Reads s a x) :
    exec (.arb a) s = .next ((s.adjustBase x).advance 2) := by
  simp [exec, execArb, val_of_reads h]

/-- Settles O47: the first half is `exec_adjustBase` for either kind of outcome; in the second the operand names the cell
at the old `rb + p`, and ARB adds what it reads there. -/
theorem baseUsedOnlyByRelativeOperands : Obligations.BaseUsedOnlyByRelativeOperands := by
  refine ⟨fun s i z hrel => ?independent, fun s p hp => ?arb⟩
  case independent =>
    have hmove := exec_adjustBase z i s hrel
    exact ⟨fun t ht => hmove.trans (congrArg (outcomeAdjustBase z) ht),
      fun f hf => hmove.trans (congrArg (outcomeAdjustBase z) hf)⟩
  case arb =>
    have hcell : Targets s ⟨.relative, p⟩ (s.rb + p).toNat := by simp [Targets, State.effective, hp]
    exact exec_arb_of_reads hcell.reads

end Sys2Proof.Machine
end

section
/-! PROOFS. The statements of 46_execution_driver.md: the suspend/resume machine (R121), a core at rest executes nothing
(R112, R113), STEP delivers the output it stops at (R118), and RUN's outputs are those of successive STEPs (R124). -/

namespace Sys2Proof.Machine

/-! ### Status and being at rest -/

section
variable {s : State} {r : FaultRecord}

theorem atRest_of_fault (h : s.fault = some r) : atRest s = some (.fault r) := by
  simp [atRest, h]

theorem atRest_of_terminated (hf : s.fault = none) (ht : s.terminated = true) : atRest s = some .halted := by
  simp [atRest, hf, ht]

theorem status_of_fault (h : s.fault = some r) : s.status = .faulted := by
  simp [State.status, h]

theorem status_of_terminated (hf : s.fault = none) (ht : s.terminated = true) : s.status = .terminated := by
  simp [State.status, hf, ht]

/-- The status of a core is what a call would answer at once. -/
theorem status_cases (s : State) :
    (s.status = .running ∧ atRest s = none) ∨ (s.status = .terminated ∧ atRest s = some .halted) ∨
    ∃ r, s.status = .faulted ∧ atRest s = some (.fault r) := by
  cases hf : s.fault with
  | some r => exact .inr (.inr ⟨r, status_of_fault hf, atRest_of_fault hf⟩)
  | none =>
    cases ht : s.terminated with
    | true => exact .inr (.inl ⟨status_of_terminated hf ht, atRest_of_terminated hf ht⟩)
    | false =>
      have hrest : atRest s = none := atRest_eq_none.mpr ⟨hf, ht⟩
      exact .inl ⟨status_of_atRest_eq_none hrest, hrest⟩

theorem atRest_of_status_running (h : s.status = .running) : atRest s = none := by
  rcases status_cases s with ⟨_, hr⟩ | ⟨hs, _⟩ | ⟨_, hs, _⟩
  · exact hr
  · simp [hs] at h
  · simp [hs] at h

theorem atRest_of_status_terminated (h : s.status = .terminated) : atRest s = some .halted := by
  rcases status_cases s with ⟨hs, _⟩ | ⟨_, hr⟩ | ⟨_, hs, _⟩
  · simp [hs] at h
  · exact hr
  · simp [hs] at h

end

/-! ### An instruction's effect is what it executes to -/

section
variable {s t : State} {i : Instr} {a : Operand} {x : Int}

/-- The converse of `exec_next`: where an instruction can have its effect, it executes to it. -/
theorem Effect.exec_eq (h : Effect i s t) : exec i s = .next t := by
  cases h with
  | add ha hb hd => exact storeResult_of_reads ha hb hd
  | mul ha hb hd => exact storeResult_of_reads ha hb hd
  | lt ha hb hd => exact storeResult_of_reads (f := fun x y => truth (decide (x < y))) ha hb hd
  | eq ha hb hd => exact storeResult_of_reads (f := fun x y => truth (decide (x = y))) ha hb hd
  | inpQueue hd hq => exact exec_inp_of_queue hd hq
  | inpDefault hd hq hv => exact exec_inp_of_default hd hq hv
  | out ha => simp [exec, execOut, val_of_reads ha]
  | jnzTaken hc hg hx => exact exec_jnz_of_taken hc hg hx
  | jnzNotTaken hc hg => simp [exec, execJnz, jumpWhen_of_reads hc hg]
  | jzTaken hc hg => exact exec_jz_of_taken hc hg
  | jzNotTaken hc hg hx => simp [exec, execJz, jumpWhen_of_reads hc hg, hx]
  | arb ha => exact exec_arb_of_reads ha
  | hlt => rfl

/-- Only HLT writes `terminated` (R16). -/
theorem Effect.terminated (h : Effect i s t) (hi : i ≠ .hlt) : t.terminated = s.terminated := by
  cases h with
  | hlt => exact absurd rfl hi
  | _ => rfl

/-- An instruction other than HLT leaves a running core running. -/
theorem Effect.keeps_running (h : Effect i s t) (hi : i ≠ .hlt) (hrest : atRest s = none) : atRest t = none := by
  rw [atRest_eq_none] at hrest ⊢
  rwa [h.fault, h.terminated hi]

/-- No instruction reads the output queue: only OUT touches it, so any other has the same effect on an emptied one. -/
theorem Effect.clearOutputs (h : Effect i s t) (hi : ∀ a, i ≠ .out a) :
    Effect i s.clearOutputs t.clearOutputs := by
  cases h with
  | add ha hb hd => exact .add ha hb hd
  | mul ha hb hd => exact .mul ha hb hd
  | lt ha hb hd => exact .lt ha hb hd
  | eq ha hb hd => exact .eq ha hb hd
  | inpQueue hd hq => exact .inpQueue (s := s.clearOutputs) hd hq
  | inpDefault hd hq hv => exact .inpDefault (s := s.clearOutputs) hd hq hv
  | out => exact absurd rfl (hi _)
  | jnzTaken hc hg hx => exact .jnzTaken (s := s.clearOutputs) hc hg hx
  | jnzNotTaken hc hg => exact .jnzNotTaken (s := s.clearOutputs) hc hg
  | jzTaken hc hg => exact .jzTaken (s := s.clearOutputs) hc hg
  | jzNotTaken hc hg hx => exact .jzNotTaken (s := s.clearOutputs) hc hg hx
  | arb ha => exact .arb (s := s.clearOutputs) ha
  | hlt => exact .hlt (s := s.clearOutputs)

/-- A step that latches nothing is the fetched instruction's effect. -/
theorem effect_of_step_next (hrest : atRest s = none) (hi : fetchInstr s = .ok i) (hs : step s = .next t)
    (hf : t.fault = none) : Effect i s t := by
  rw [step_of_fetchInstr hrest hi] at hs
  rcases exec_next hs with he | ⟨r, _, rfl⟩
  · exact he
  · simp at hf

/-! ### One pass of the loop, from what the step does -/

/-- The loop goes on after an instruction that reports no output (R111 e). -/
theorem driveOnce_of_no_output (b : Bool) (hrest : atRest s = none) (hi : fetchInstr s = .ok i)
    (he : Effect i s t) (hout : ∀ a, i ≠ .out a) : driveOnce b s = .continues t := by
  have hs : step s = .next t := (step_of_fetchInstr hrest hi).trans he.exec_eq
  have hf : t.fault = none := he.fault.trans (atRest_eq_none.mp hrest).1
  rcases eventOf_effect he with ⟨a, _, hia, _⟩ | ⟨_, _, hev | hev⟩
  · exact absurd hia (hout a)
  · simp [driveOnce, hrest, hs, hf, eventAt, hi, hev]
  · simp [driveOnce, hrest, hs, hf, eventAt, hi, hev]

/-- After an OUT, STEP returns the value without leaving it in the queue, and RUN goes on (R111 d, R118). -/
theorem driveOnce_of_out (b : Bool) (hrest : atRest s = none) (hi : fetchInstr s = .ok (.out a))
    (hx : Reads s a x) : driveOnce b s =
      if b then .returned (.produced x) (s.advance 2) else .continues ((s.pushOutput x).advance 2) := by
  have hs : step s = .next ((s.pushOutput x).advance 2) :=
    (step_of_fetchInstr hrest hi).trans (Effect.out hx).exec_eq
  have hf : s.fault = none := (atRest_eq_none.mp hrest).1
  have hpop : ((s.pushOutput x).advance 2).popOutput = s.advance 2 := by simp [State.popOutput, State.advance]
  simp [driveOnce, hrest, hs, hf, eventAt, hi, eventOf, hpop]

/-- A call ends with the record that its step latches. -/
theorem driveOnce_of_latched (b : Bool) {r : FaultRecord} (hrest : atRest s = none) (hs : step s = .next t)
    (hf : t.fault = some r) : driveOnce b s = .returned (.fault r) t := by
  simp [driveOnce, hrest, hs, hf]

end

/-! ### Sessions -/

section
variable {s t : State} {b : Bool} {r : Result}

theorem begin_of_running (b : Bool) (h : s.status = .running) : Session.begin b s = (⟨s, .executing b⟩, none) := by
  simp [Session.begin, atRest_of_status_running h]

theorem begin_of_atRest (b : Bool) (h : atRest s = some r) : Session.begin b s = (⟨s, .idle⟩, some (.call r)) := by
  simp [Session.begin, h]

/-- RUN and STEP to a core at rest answer at once and leave it idle. -/
theorem issue_call_of_atRest {a : HostAction} (ha : a = .run ∨ a = .step) (h : atRest s = some r) :
    Session.issue a ⟨s, .idle⟩ = some (⟨s, .idle⟩, some (.call r)) := by
  rcases ha with rfl | rfl
  · exact congrArg some (begin_of_atRest false h)
  · exact congrArg some (begin_of_atRest true h)

/-- The commands other than LOAD, power-on, RUN and STEP touch nothing that the status is a function of. -/
theorem issue_keeps_status (s : State) {a : HostAction} (hload : ∀ p q, a ≠ .load p q) (hpow : a ≠ .powerOn)
    (hrun : a ≠ .run) (hstep : a ≠ .step) :
    ∃ t r, Session.issue a ⟨s, .idle⟩ = some (⟨t, .idle⟩, some r) ∧ t.status = s.status := by
  cases a with
  | load p q => exact absurd rfl (hload p q)
  | powerOn => exact absurd rfl hpow
  | run => exact absurd rfl hrun
  | step => exact absurd rfl hstep
  | addInput v => exact ⟨_, _, rfl, rfl⟩
  | setDefault v => exact ⟨_, _, rfl, rfl⟩
  | clearDefault => exact ⟨_, _, rfl, rfl⟩
  | peekOutputs => exact ⟨_, _, rfl, rfl⟩
  | takeOutputs => exact ⟨_, _, rfl, rfl⟩
  | memPeek n => exact ⟨_, _, rfl, rfl⟩
  | status => exact ⟨_, _, rfl, rfl⟩

theorem tick_of_returned (h : driveOnce b s = .returned r t) :
    Session.tick ⟨s, .executing b⟩ = some (⟨t, .idle⟩, some r) := by
  simp [Session.tick, h]

theorem tick_of_continues (h : driveOnce b s = .continues t) (ht : atRest t = none) :
    Session.tick ⟨s, .executing b⟩ = some (⟨t, .executing b⟩, none) := by
  simp [Session.tick, h, ht]

theorem tick_of_continues_at_rest (h : driveOnce b s = .continues t) (ht : atRest t = some r) :
    Session.tick ⟨s, .executing b⟩ = some (⟨t, .idle⟩, some r) := by
  simp [Session.tick, h, ht]

end

/-- Settles O8: the idle rows are `Session.begin` by the core's status; the executing rows are one pass of the loop, which
the step's answer determines. -/
theorem suspendResumeTransitions : Obligations.SuspendResumeTransitions := by
  refine ⟨fun s => ⟨fun p q => ⟨rfl, rfl⟩, rfl, rfl, fun hrun => ⟨?run, ?step⟩, fun hterm a ha => ?terminated,
    fun r hf a ha => ?faulted, fun a hload hpow hrun hstep => issue_keeps_status s hload hpow hrun hstep,
    fun _ _ => rfl, rfl⟩, fun b s hrun => ?executing⟩
  case run => exact congrArg some (begin_of_running false hrun)
  case step => exact congrArg some (begin_of_running true hrun)
  case terminated => exact issue_call_of_atRest ha (atRest_of_status_terminated hterm)
  case faulted => exact issue_call_of_atRest ha (atRest_of_fault hf)
  case executing =>
    have hrest := atRest_of_status_running hrun
    refine ⟨fun i t hi hs hf => ?instr, fun r hs => ?missing, fun r t hs hf => ?latched⟩
    case missing => exact tick_of_returned (driveOnce_of_missingInput b hs)
    case latched => exact ⟨tick_of_returned (driveOnce_of_latched b hrest hs hf), status_of_fault hf⟩
    case instr =>
      have he : Effect i s t := effect_of_step_next hrest hi hs hf
      refine ⟨fun hout hhlt => ?goOn, fun a x hia hx => ?out, fun hhlt => ?hlt⟩
      case goOn =>
        have ht : atRest t = none := he.keeps_running hhlt hrest
        exact ⟨tick_of_continues (driveOnce_of_no_output b hrest hi he hout) ht, status_of_atRest_eq_none ht⟩
      case out =>
        subst hia
        have ht : atRest t = none := he.keeps_running (by simp) hrest
        obtain rfl : t = (s.pushOutput x).advance 2 := by
          simpa [he.exec_eq] using (Effect.out hx).exec_eq
        exact ⟨status_of_atRest_eq_none ht, tick_of_continues (driveOnce_of_out false hrest hi hx) ht,
          tick_of_returned (driveOnce_of_out true hrest hi hx)⟩
      case hlt =>
        subst hhlt
        have ht : t.terminated = true := by cases he; rfl
        exact ⟨tick_of_continues_at_rest (driveOnce_of_no_output b hrest hi he (by simp)) (atRest_of_terminated hf ht),
          status_of_terminated hf ht⟩

/-! ### A core at rest -/

section
variable {s t : State} {fuel : Nat}

/-- RUN and STEP on a core at rest complete with its answer and the state as it was. -/
theorem performed_drive_of_atRest {b : Bool} {r : Result} {q : HostResult} (hrest : atRest s = some r)
    (h : (drive b fuel s).performed = .done q t) : t = s := by
  rw [drive_of_atRest b fuel hrest] at h
  cases h
  rfl

/-- Only LOAD and power-on reset clear the latch (R113). -/
theorem perform_keeps_fault {r : FaultRecord} {a : HostAction} {q : HostResult} (hf : s.fault = some r)
    (h : perform fuel a s = .done q t) (hload : ∀ p i, a ≠ .load p i) (hpow : a ≠ .powerOn) : t.fault = some r := by
  have hrest := atRest_of_fault hf
  cases a with
  | load p i => exact absurd rfl (hload p i)
  | powerOn => exact absurd rfl hpow
  | run => rwa [performed_drive_of_atRest (b := false) hrest h]
  | step => rwa [performed_drive_of_atRest (b := true) hrest h]
  | addInput v => cases h; exact hf
  | setDefault v => cases h; exact hf
  | clearDefault => cases h; exact hf
  | peekOutputs => cases h; exact hf
  | takeOutputs => cases h; exact hf
  | memPeek n => cases h; exact hf
  | status => cases h; exact hf

theorem step_of_fault {r : FaultRecord} (hf : s.fault = some r) : step s = .fault (.latched r) := by
  simp [step, hf]

theorem step_of_terminated (hf : s.fault = none) (ht : s.terminated = true) : step s = .next s := by
  simp [step, hf, ht]

/-- A state that a step leads to itself stays under any number of steps. -/
theorem run_of_step_self (h : step s = .next s) (k : Nat) : Sys2Proof.core.run k s = .next s := by
  have hcore : Sys2Proof.core.step s = .next s := h
  induction k with
  | zero => rfl
  | succ k ih => simp only [Host.Core.run, hcore, ih]

end

/-- Settles O33: the latch is tested before anything else, and no command but the two writes it. -/
theorem faultedCoreExecutesNothing : Obligations.FaultedCoreExecutesNothing := fun _ _ hf =>
  ⟨step_of_fault hf, fun b fuel => drive_of_atRest b fuel (atRest_of_fault hf),
    fun _ _ _ _ h hload hpow => perform_keeps_fault hf h hload hpow⟩

/-- Settles O34: a terminated core is at rest, and its step leads to itself. -/
theorem terminatedCoreExecutesNothing : Obligations.TerminatedCoreExecutesNothing := fun _ hf ht =>
  ⟨fun b fuel => drive_of_atRest b fuel (atRest_of_terminated hf ht), run_of_step_self (step_of_terminated hf ht)⟩

/-! ### The last pass of a STEP -/

/-- A STEP that returns does so in a last pass, and the passes before it leave the output queue as it was: an OUT would
have ended the call. -/
theorem drive_step_last_pass {s t : State} {r : Result} {fuel : Nat} (h : drive true fuel s = .returned r t) :
    ∃ u, u.outq = s.outq ∧ driveOnce true u = .returned r t := by
  refine drive_returned_induction
    (P := fun s r t => ∃ u, u.outq = s.outq ∧ driveOnce true u = .returned r t)
    (fun s r t hd => ⟨s, rfl, hd⟩) (fun s w r t hd ih => ?_) h
  obtain ⟨u, hu, hlast⟩ := ih
  obtain ⟨_, i, _, _, _, ⟨hfalse, _⟩ | ⟨_, hq⟩⟩ := driveOnce_continues hd
  · cases hfalse
  · exact ⟨u, hu.trans hq, hlast⟩

theorem popOutput_of_outq {w : State} {q : List Int} {x : Int} (h : w.outq = q ++ [x]) :
    w.popOutput = { w with outq := q } := by
  simp [State.popOutput, h]

/-- Settles O49: of the ways in which the last pass can return, only an OUT's returns `Produced`. -/
theorem stepDeliversItsOutput : Obligations.StepDeliversItsOutput := by
  rintro s t v ⟨fuel, h⟩
  obtain ⟨u, hu, hlast⟩ := drive_step_last_pass h
  rcases driveOnce_returned hlast with ⟨hr, _⟩ | ⟨_, _, _, _, _, _, hr⟩ | ⟨_, _, _, _, hr⟩ |
      ⟨_, _, a, x, w, hi, _, hs, hq, rfl, hr⟩
  · rcases atRest_cases hr with ⟨_, _, hv⟩ | ⟨_, _, hv⟩ <;> cases hv
  · cases hr
  · cases hr
  · cases hr
    rw [hu] at hq
    exact ⟨u, w, a, hi, hu, hs, hq, popOutput_of_outq hq⟩

/-! ### RUN's outputs, one STEP after another -/

section
variable {s t w : State}

theorem Returns.of_returned {b : Bool} {r : Result} (h : driveOnce b s = .returned r t) : Returns b s r t :=
  ⟨1, by simp [drive, h]⟩

theorem Returns.of_continues {b : Bool} {r : Result} (h : driveOnce b s = .continues w) (hw : Returns b w r t) :
    Returns b s r t := by
  obtain ⟨fuel, hfuel⟩ := hw
  exact ⟨fuel + 1, by simp [drive, h, hfuel]⟩

/-- `Streams s t`: what RUN appends on its way from `s` to the terminated `t`, successive STEPs from `s` with an empty
output queue return one by one, and the next STEP halts in `t` with an empty output queue. -/
def Streams (s t : State) : Prop :=
  ∃ vs u, t.outq = s.outq ++ vs ∧ Produces s.clearOutputs vs u ∧ Returns true u .halted t.clearOutputs

theorem Streams.of_halted (h : atRest s = some .halted) : Streams s s := by
  have hclear : atRest s.clearOutputs = some .halted := h
  exact ⟨[], s.clearOutputs, by simp, .nil _, .of_returned (driveOnce_of_atRest true hclear)⟩

/-- A pass that goes on under STEP lengthens the first call, be it the one that halts or one that produces. -/
theorem Streams.of_no_output (hd : driveOnce true s.clearOutputs = .continues w.clearOutputs)
    (hq : w.outq = s.outq) (h : Streams w t) : Streams s t := by
  obtain ⟨vs, u, ht, hp, hh⟩ := h
  rw [hq] at ht
  cases hp with
  | nil => exact ⟨[], s.clearOutputs, ht, .nil _, .of_continues hd hh⟩
  | cons _ w' _ v vs hv hp => exact ⟨v :: vs, u, ht, .cons _ w' _ v vs (.of_continues hd hv) hp, hh⟩

/-- A pass that produces is a call of its own. -/
theorem Streams.of_output {x : Int} (hd : driveOnce true s.clearOutputs = .returned (.produced x) w.clearOutputs)
    (hq : w.outq = s.outq ++ [x]) (h : Streams w t) : Streams s t := by
  obtain ⟨vs, u, ht, hp, hh⟩ := h
  exact ⟨x :: vs, u, by simp [ht, hq], .cons _ _ _ x vs (.of_returned hd) hp, hh⟩

/-- Each pass of RUN is a pass of STEP on the emptied queue, since neither fetching nor an instruction reads the queue. -/
theorem Streams.of_run_pass (hd : driveOnce false s = .continues w) (h : Streams w t) : Streams s t := by
  obtain ⟨hrest, i, hi, he, _, ⟨_, a, x, rfl, hq⟩ | ⟨hout, hq⟩⟩ := driveOnce_continues hd
  · cases he with
    | @out _ _ y hy =>
      have hpass : driveOnce true s.clearOutputs = .returned (.produced y) (s.clearOutputs.advance 2) :=
        driveOnce_of_out (s := s.clearOutputs) true hrest hi hy
      exact h.of_output hpass rfl
  · exact h.of_no_output (driveOnce_of_no_output (s := s.clearOutputs) true hrest hi (he.clearOutputs hout) hout) hq

theorem streams_of_run_halted (h : Returns false s .halted t) : Streams s t := by
  obtain ⟨fuel, h⟩ := h
  refine drive_returned_induction (b := false) (P := fun s r t => r = .halted → Streams s t) ?_ ?_ h rfl
  · rintro s r t hd rfl
    rcases driveOnce_returned hd with ⟨hr, rfl⟩ | ⟨_, _, _, _, _, _, hr⟩ | ⟨_, _, _, _, hr⟩ | ⟨_, hb, _⟩
    · exact .of_halted hr
    · cases hr
    · cases hr
    · cases hb
  · exact fun s w r t hd ih hr => (ih hr).of_run_pass hd

end

/-- Settles O48: with nothing in the queue at the start, what RUN appends is all of its final output queue. -/
theorem streamingEquivalence : Obligations.StreamingEquivalence := by
  intro s t hq h
  obtain ⟨vs, u, ht, hp, hh⟩ := streams_of_run_halted h
  have hclear : s.clearOutputs = s := by rw [State.clearOutputs, ← hq]
  obtain rfl : t.outq = vs := by simpa [hq] using ht
  exact ⟨u, hclear ▸ hp, hh⟩

end Sys2Proof.Machine
end

section
/-! PROOFS. The statements of 47_host_commands.md: what LOAD installs (R130) and what the four retrieval commands return
(R138 to R141). -/

namespace Sys2Proof.Machine

/-- The image starts at address 0, and an address beyond it reads 0 (R130). -/
theorem Memory.read_image (program : List Int) (a : Nat) : (image program).read a = program.getD a 0 := by
  rw [image, read_imageFrom, if_pos (Nat.zero_le a), Nat.sub_zero]

/-- Settles O3: the image reads as the program and is canonical; LOAD writes each other element outright. -/
theorem loadInstallsImage : Obligations.LoadInstallsImage := fun _ program inputs s =>
  ⟨s.load program inputs, rfl, Memory.read_image program, load_wf s program inputs, load_ip .., load_rb ..,
    load_terminated .., load_outq .., load_inq .., load_fault .., load_defaultInput ..⟩

/-- Settles O5: each equation is that command's own arm of `perform`, with `State.clearOutputs` and `State.report`
written out. -/
theorem retrievalCommandsReport : Obligations.RetrievalCommandsReport := fun _ _ _ => ⟨rfl, rfl, rfl, rfl⟩

end Sys2Proof.Machine
end

section
/-! PROOFS. The statements of 60_exceptions.md: one instruction reports the first of its faults in the spec's order (R159),
and a fault changes nothing but the latch (R160). -/

namespace Sys2Proof

/-- The third fault a word can give rise to, after InvalidMode and UnknownOpcode: its row's write target has mode 1 (R62,
R69). -/
theorem decodeHead_of_immediateTarget {w : Int} {op : Opcode} {k : Nat} (hv : ModesValid w) (hop : opcodeOf w = op.code)
    (hk : op.writeParam = some k) (hd : modeDigit w k = 1) : decodeHead w = .error (.immediateWriteTarget k) := by
  have row {op' : Opcode} (h : opcodeOf w = op'.code) : op' = op := code_injective (by exact_mod_cast h.symm.trans hop)
  rcases decodeHead_cases w with ⟨hv', _⟩ | ⟨_, hno, _⟩ | ⟨_, op', k', hop', hk', _, h⟩ | ⟨_, q, hop', hnot, _, _⟩
  · exact absurd hv hv'
  · exact absurd hop (hno op)
  · obtain rfl := row hop'
    obtain rfl : k' = k := by simpa [hk] using hk'.symm
    exact h
  · rw [← row hop'] at hk
    exact absurd hd (hnot k hk)

/-- Parameter `k` of a decoded word has the mode of place `k` (R55). -/
theorem mode_of_instr_operand {h : Head} {param : Nat → Int} {k : Nat} {o : Operand} (hk : 1 ≤ k)
    (ho : (h.instr param).operands[k - 1]? = some o) : o.mode = modeOf h.modes k := by
  obtain ⟨j, rfl⟩ := Nat.exists_eq_add_of_le' hk
  rw [instr_operands, List.getElem?_map, Option.map_eq_some_iff] at ho
  obtain ⟨n, hn, rfl⟩ := ho
  obtain ⟨_, rfl⟩ : j < h.op.arity ∧ j = n := by simpa [List.getElem?_eq_some_iff] using hn
  rfl

/-- What decodes is well-formed: the decoder has refused an immediate write target. -/
theorem wellFormed_of_decode {w : Int} {param : Nat → Int} {i : Instr} (h : decode w param = .ok i) :
    i.wellFormed = true := by
  rw [wellFormed_iff]
  intro k o hk ho him
  rcases decodeHead_cases w with ⟨_, hd⟩ | ⟨_, _, hd⟩ | ⟨_, _, _, _, _, _, hd⟩ | ⟨_, q, _, hnot, hmodes, hd⟩
  · simp [decode, hd] at h
  · simp [decode, hd] at h
  · simp [decode, hd] at h
  · obtain rfl : q.instr param = i := by simpa [decode, hd] using h
    have hk1 : 1 ≤ k := (exists_target_operand hk).1
    rw [instr_opcode] at hk
    refine hnot k hk ?_
    rw [← hmodes k hk1, ← mode_of_instr_operand hk1 ho, him]
    rfl

end Sys2Proof

namespace Sys2Proof.Machine

variable {s : State} {a b d : Operand} {os : List Operand} {k : Nat} {e : Int}

/-- A record of an instruction that can be fetched holds its word (R152). -/
theorem record_of_wordAt {w : Int} (h : s.wordAt = some w) (c : Cause) (sub : Option Subcause) (adr : Option Int)
    (k : Option Nat) : s.record c sub adr k = ⟨c, sub, s.ip, some w, adr, k⟩ := by
  rw [State.record, h]

/-! ### The first parameter that forms a negative address -/

/-- Parameter `k` of the parameters `os` forms the negative address `e`, and every parameter before it can be read. -/
inductive FirstNegative (s : State) : List Operand → Nat → Int → Prop
  | here {o : Operand} {os : List Operand} {e : Int} : NegativeAt s o e → FirstNegative s (o :: os) 1 e
  | there {o : Operand} {os : List Operand} {x : Int} {k : Nat} {e : Int} : Reads s o x → FirstNegative s os k e →
      FirstNegative s (o :: os) (k + 1) e

/-- A parameter that does not form a negative address can be read, so the first of those that do is `FirstNegative`. -/
theorem firstNegative_of_getElem? {o : Operand} (hk : 1 ≤ k) (ho : os[k - 1]? = some o) (he : NegativeAt s o e)
    (hmin : ∀ (j : Nat) (p : Operand) (f : Int), 1 ≤ j → j < k → os[j - 1]? = some p → ¬ NegativeAt s p f) :
    FirstNegative s os k e := by
  induction os generalizing k with
  | nil => simp at ho
  | cons p os ih =>
    obtain ⟨m, rfl⟩ : ∃ m, k = m + 1 := ⟨k - 1, by omega⟩
    cases m with
    | zero =>
      obtain rfl : p = o := by simpa using ho
      exact .here he
    | succ m =>
      obtain ⟨x, hx⟩ : ∃ x, Reads s p x :=
        (reads_or_negative s p).resolve_right fun ⟨f, hf⟩ => hmin 1 p f le_rfl (by omega) rfl hf
      refine .there hx (ih (by omega) (by simpa using ho) fun j q f hj hjm hq => ?_)
      exact hmin (j + 1) q f (by omega) (by omega) (by obtain ⟨n, rfl⟩ := Nat.exists_eq_add_of_le' hj; simpa using hq)

/-- AddressError of parameter `k` at the negative address `e`: (write) where `k` is the write target's number `w`, else
(read). -/
def State.parameterError (s : State) (w : Option Nat) (k : Nat) (e : Int) : FaultRecord :=
  s.record .addressError (some (if w = some k then .write else .read)) (some e) (some k)

@[simp] theorem parameterError_target (s : State) (k : Nat) (e : Int) :
    s.parameterError (some k) k e = s.writeError k e := by
  simp [State.parameterError, State.writeError]

@[simp] theorem parameterError_source {w : Option Nat} (h : w ≠ some k) : s.parameterError w k e = s.readError k e := by
  simp [State.parameterError, State.readError, h]

/-! ### An instruction with such a parameter latches its address error -/

theorem storeResult_of_firstNegative (f : Int → Int → Int) (hd : d.mode.writable = true)
    (h : FirstNegative s [a, b, d] k e) : storeResult f a b d s = .next (s.latch (s.parameterError (some 3) k e)) := by
  have hcheck : checkTarget 3 d s = .ok () := checkTarget_of_not_immediate ((writable_iff d.mode).mp hd)
  rcases h with ha | ⟨ha, hb | ⟨hb, hneg | ⟨_, ⟨⟩⟩⟩⟩
  · simp [storeResult, resolveStore, hcheck, val_of_negative ha]
  · simp [storeResult, resolveStore, hcheck, val_of_reads ha, val_of_negative hb]
  · simp [storeResult, resolveStore, hcheck, val_of_reads ha, val_of_reads hb, addr_of_negative hneg]

theorem jumpWhen_of_firstNegative (p : Int → Bool) (h : FirstNegative s [a, b] k e) :
    jumpWhen p a b s = .next (s.latch (s.parameterError none k e)) := by
  rcases h with ha | ⟨ha, hb | ⟨_, ⟨⟩⟩⟩
  · simp [jumpWhen, resolvePair, val_of_negative ha]
  · simp [jumpWhen, resolvePair, val_of_reads ha, val_of_negative hb]

theorem execInp_of_firstNegative (h : FirstNegative s [d] k e) :
    execInp d s = .next (s.latch (s.parameterError (some 1) k e)) := by
  rcases h with hneg | ⟨_, ⟨⟩⟩
  simp [execInp, resolveTarget, checkTarget_of_not_immediate hneg.not_immediate, addr_of_negative hneg]

/-- OUT and ARB resolve their one source before they do anything else. -/
theorem settle_val_of_firstNegative (f : Int → Except FaultRecord State) (h : FirstNegative s [a] k e) :
    settle s (val 1 a s >>= f) = .next (s.latch (s.parameterError none k e)) := by
  rcases h with hneg | ⟨_, ⟨⟩⟩
  simp [val_of_negative hneg]

/-- A well-formed instruction latches the address error of its first parameter with a negative address. -/
theorem exec_of_firstNegative {i : Instr} (hwf : i.wellFormed = true) (h : FirstNegative s i.operands k e) :
    exec i s = .next (s.latch (s.parameterError i.opcode.writeParam k e)) := by
  cases i with
  | add => exact storeResult_of_firstNegative (fun x y => x + y) hwf h
  | mul => exact storeResult_of_firstNegative (fun x y => x * y) hwf h
  | lt => exact storeResult_of_firstNegative (fun x y => truth (decide (x < y))) hwf h
  | eq => exact storeResult_of_firstNegative (fun x y => truth (decide (x = y))) hwf h
  | inp => exact execInp_of_firstNegative h
  | out => exact settle_val_of_firstNegative _ h
  | arb => exact settle_val_of_firstNegative _ h
  | jnz => exact jumpWhen_of_firstNegative (fun x => decide (x ≠ 0)) h
  | jz => exact jumpWhen_of_firstNegative (fun x => decide (x = 0)) h
  | hlt => cases h

/-! ### A step of a running core at an address that can be fetched -/

section
variable {w : Int} (hrest : atRest s = none) (hip : 0 ≤ s.ip) (hw : w = s.mem.read s.ip.toNat)
include hrest hip hw

/-- A refused word is latched as the decoder names it, whatever its parameter cells hold. -/
theorem step_of_decodeHead_error {q : DecodeFault} (h : decodeHead w = .error q) :
    step s = .next (s.latch (s.decodeError q)) := by
  obtain ⟨hf, ht⟩ := atRest_eq_none.mp hrest
  exact step_of_fetchInstr_error hf ht (fetchInstr_of_decodeHead_error hip (hw ▸ h))

/-- The parameter cells of the instruction at `ip` are those above its word. -/
theorem step_of_decode {i : Instr} (h : decode w (fun k => s.mem.read (s.ip.toNat + k)) = .ok i) : step s = exec i s := by
  have hparam : s.param = fun k => s.mem.read (s.ip.toNat + k) := by
    funext k
    exact param_of_address_eq (by omega)
  refine step_of_fetchInstr hrest ?_
  simp [fetchInstr, wordAt_of_nonneg hip, ← hw, hparam, h]

end

/-- Settles O30: the three decoding faults are the three in which `decodeHead` refuses the word, in its order; what
decodes has a writable target, so its first parameter with a negative address is the one it stops at
(`exec_of_firstNegative`), and an IN with none resolves its target before it looks for an input. -/
theorem firstFaultIsReported : Obligations.FirstFaultIsReported := by
  intro s hf ht
  refine ⟨step_of_negative_ip hf ht, fun w hip hw => ?_⟩
  have hrest : atRest s = none := atRest_eq_none.mpr ⟨hf, ht⟩
  have hrecord := record_of_wordAt (hw ▸ wordAt_of_nonneg hip : s.wordAt = some w)
  have refuse {q : DecodeFault} (h : decodeHead w = .error q) := step_of_decodeHead_error hrest hip hw h
  refine ⟨fun hv => ?mode, fun hv hop => ?opcode, fun op k hv hop hk hd => ?target,
    fun i hi => ⟨fun k o e hk ho he hmin => ?operand, fun d hid hpos hq hdef => ?input⟩⟩
  case mode => rw [← hrecord]; exact refuse ((decodeHead_eq_invalidMode_iff w).mpr hv)
  case opcode => rw [← hrecord]; exact refuse ((decodeHead_eq_unknownOpcode_iff w).mpr ⟨hv, hop⟩)
  case target => rw [← hrecord]; exact refuse (decodeHead_of_immediateTarget hv hop hk hd)
  case operand =>
    rw [← hrecord, step_of_decode hrest hip hw hi]
    exact exec_of_firstNegative (wellFormed_of_decode hi) (firstNegative_of_getElem? hk ho he hmin)
  case input =>
    subst hid
    have hd : d.mode ≠ .immediate := (writable_iff d.mode).mp (wellFormed_of_decode hi)
    obtain ⟨n, hn⟩ : ∃ n, Targets s d n :=
      ((target_cases s d).resolve_left hd).resolve_right fun ⟨e, he⟩ => hpos e he
    rw [← hrecord, step_of_decode hrest hip hw hi]
    exact exec_inp_of_missing hn hq hdef

/-! ### Faults are precise -/

/-- The latched causes (R151, R156). -/
theorem isLatched_iff (c : Cause) : c.isLatched = true ↔ c = .decodeError ∨ c = .addressError := by
  cases c <;> simp [Cause.isLatched]

/-- Settles O31: of the next states that `step_next` lists, only that of a raised fault holds a record in the latch; a
missing input ends the call in its first pass. -/
theorem faultsArePrecise : Obligations.FaultsArePrecise := by
  refine ⟨fun s t r hf hs hr => ?latched, fun s r b fuel h => ?missing⟩
  case latched =>
    obtain ⟨_, ⟨_, rfl⟩ | ⟨_, q, hq, _, rfl⟩ | ⟨_, i, _, he⟩⟩ := step_next hs
    · simp [hf] at hr
    · obtain rfl : q = r := by simpa using hr
      exact ⟨rfl, (isLatched_iff _).mp hq⟩
    · simp [he.fault, hf] at hr
  case missing => simp [drive, driveOnce_of_missingInput b h]

end Sys2Proof.Machine
end

section
/-! PROOFS. The statement of 70_reset_and_hazards.md: the state after power-on reset, and the calls made there (R180). -/

namespace Sys2Proof.Machine

/-- A core after power-on is neither faulted nor terminated, so a call executes an instruction there. -/
theorem atRest_reset : atRest State.reset = none :=
  atRest_eq_none.mpr ⟨reset_fault, reset_terminated⟩

/-- After power-on no cell was ever written, so each reads 0 (R32). -/
theorem read_reset (a : Nat) : State.reset.mem.read a = 0 := Memory.read_nil a

/-- The record of the word 0 at address 0, which the first step after power-on fetches. -/
def resetFault : FaultRecord := ⟨.decodeError, some .unknownOpcode, 0, some 0, none, none⟩

theorem step_reset : step State.reset = .next (State.reset.latch resetFault) :=
  step_of_zero_word reset_fault reset_terminated le_rfl (read_reset _)

/-- The first pass of RUN and of STEP after power-on ends the call. -/
theorem drive_reset (b : Bool) (fuel : Nat) :
    drive b (fuel + 1) State.reset = .returned (.fault resetFault) (State.reset.latch resetFault) := by
  have hpass : driveOnce b State.reset = .returned (.fault resetFault) (State.reset.latch resetFault) :=
    driveOnce_of_latched b atRest_reset step_reset (latch_fault ..)
  simp [drive, hpass]

/-- LOAD keeps the default input only, and the empty program has no cell to install (R130). -/
theorem load_empty_eq_reset {s : State} (h : s.defaultInput = none) : s.load [] [] = State.reset := by
  simp [State.load, State.reset, Memory.image, Memory.imageFrom, h]

/-- Settles O1: the elements are those `State.reset` states; LOAD agrees by `load_empty_eq_reset`, and a call ends in its
first pass, at the word 0 (`drive_reset`). -/
theorem powerOnResetState : Obligations.PowerOnResetState := by
  refine ⟨read_reset, reset_ip, reset_rb, reset_inq, reset_outq, reset_terminated, reset_defaultInput, reset_fault,
    status_of_atRest_eq_none atRest_reset, rfl, fun _ _ => rfl, fun fuel s hdef => ?load,
    fun fuel a ha => ⟨State.reset.latch resetFault, ?call, status_of_fault (latch_fault ..)⟩⟩
  case load => simp [perform, load_empty_eq_reset hdef]
  case call =>
    rcases ha with rfl | rfl
    · simp [perform, drive_reset, Call.performed, resetFault]
    · simp [perform, drive_reset, Call.performed, resetFault]

end Sys2Proof.Machine
end

section
/-! PROOFS. The statements of 30_encoding.md on the decoder and the encoder: each gives back what the other was given
(R50 to R55), and which words select a row or are refused for their write target (R62, R65). -/

namespace Sys2Proof

/-! ### The word of a row -/

/-- Every opcode number is below 100, so a word of a row has it in its low two digits, mode digits above them or not
(R52, R53). -/
theorem opcodeOf_eq_code_iff {w : Int} {op : Opcode} : opcodeOf w = op.code ↔ 0 ≤ w ∧ w % 100 = op.code := by
  have hcode := code_lt_hundred op
  unfold opcodeOf
  split <;> omega

/-- Only a word above 99 has a mode digit other than 0. -/
theorem hundred_le_of_digit_eq_one {w : Int} {k : Nat} (h : digit (w.toNat / 100) k = 1) : 100 ≤ w := by
  by_contra hw
  rw [show w.toNat / 100 = 0 by omega, digit_zero] at h
  cases h

/-! ### What decodes, in terms of the word's digits -/

/-- A word decodes to `h` only if it has `h`'s opcode and mode digits, none of them 3 to 9 and the write target's not 1. -/
theorem decodeHead_ok {w : Int} {h : Head} (hd : decodeHead w = .ok h) :
    ModesValid w ∧ opcodeOf w = h.op.code ∧ (∀ k, h.op.writeParam = some k → modeDigit w k ≠ 1) ∧
      ∀ k ≥ 1, (modeOf h.modes k).digit = modeDigit w k := by
  rcases decodeHead_cases w with ⟨_, hd'⟩ | ⟨_, _, hd'⟩ | ⟨_, _, _, _, _, _, hd'⟩ | ⟨hv, q, hop, htarget, hmodes, hd'⟩
  · simp [hd'] at hd
  · simp [hd'] at hd
  · simp [hd'] at hd
  · obtain rfl : q = h := by simpa [hd'] using hd
    exact ⟨hv, hop, htarget, hmodes⟩

theorem decode_ok {w : Int} {param : Nat → Int} {i : Instr} (hd : decode w param = .ok i) :
    ∃ h : Head, decodeHead w = .ok h ∧ h.instr param = i := by
  cases hh : decodeHead w with
  | error e => simp [decode, hh] at hd
  | ok h => exact ⟨h, rfl, by simpa [decode, hh] using hd⟩

theorem opcodeOf_of_decode {w : Int} {param : Nat → Int} {i : Instr} (hd : decode w param = .ok i) :
    opcodeOf w = i.opcode.code := by
  obtain ⟨h, hh, rfl⟩ := decode_ok hd
  rw [instr_opcode]
  exact (decodeHead_ok hh).2.1

theorem decodeHead_eq_immediateWriteTarget_iff (w : Int) (k : Nat) :
    decodeHead w = .error (.immediateWriteTarget k) ↔
      ModesValid w ∧ ∃ op : Opcode, opcodeOf w = op.code ∧ op.writeParam = some k ∧ modeDigit w k = 1 := by
  refine ⟨fun h => ?_, fun ⟨hv, op, hop, hk, hd⟩ => decodeHead_of_immediateTarget hv hop hk hd⟩
  rcases decodeHead_cases w with ⟨_, hd⟩ | ⟨_, _, hd⟩ | ⟨hv, op, k', hop, hk, h1, hd⟩ | ⟨_, _, _, _, _, hd⟩
  · simp [hd] at h
  · simp [hd] at h
  · obtain rfl : k' = k := by simpa [hd] using h
    exact ⟨hv, op, hop, hk, h1⟩
  · simp [hd] at h

/-- A word selects row `op` exactly when it has its opcode and is not refused for a mode digit. -/
theorem decodeHead_selects_iff (w : Int) (op : Opcode) : (∃ ms, decodeHead w = .ok ⟨op, ms⟩) ↔
    ModesValid w ∧ opcodeOf w = op.code ∧ ∀ k, op.writeParam = some k → modeDigit w k ≠ 1 := by
  constructor
  · rintro ⟨ms, hd⟩
    obtain ⟨hv, hop, htarget, _⟩ := decodeHead_ok hd
    exact ⟨hv, hop, htarget⟩
  · rintro ⟨hv, hop, htarget⟩
    have row {op' : Opcode} (h : opcodeOf w = op'.code) : op' = op := code_injective (by exact_mod_cast h.symm.trans hop)
    rcases decodeHead_cases w with ⟨hv', _⟩ | ⟨_, hno, _⟩ | ⟨_, op', k, hop', hk, h1, _⟩ | ⟨_, ⟨op', ms⟩, hop', _, _, hd⟩
    · exact absurd hv hv'
    · exact absurd hop (hno op)
    · obtain rfl := row hop'
      exact absurd h1 (htarget k hk)
    · obtain rfl := row hop'
      exact ⟨ms, hd⟩

/-- The write target of ADD, MUL, LT and EQ is parameter 3 and that of IN parameter 1 (R63, R64). -/
theorem exists_target_row_iff (c : Int) (k : Nat) : (∃ op : Opcode, c = op.code ∧ op.writeParam = some k) ↔
    (k = 3 ∧ (c = 1 ∨ c = 2 ∨ c = 7 ∨ c = 8)) ∨ (k = 1 ∧ c = 3) := by
  constructor
  · rintro ⟨op, rfl, hk⟩
    cases op <;> cases hk <;> decide
  · rintro (⟨rfl, rfl | rfl | rfl | rfl⟩ | ⟨rfl, rfl⟩)
    · exact ⟨.add, rfl, rfl⟩
    · exact ⟨.mul, rfl, rfl⟩
    · exact ⟨.lt, rfl, rfl⟩
    · exact ⟨.eq, rfl, rfl⟩
    · exact ⟨.inp, rfl, rfl⟩

/-- Settles O15: the refused words are those of a row with a write target whose digit is 1, and such a digit needs a word
of at least 100. -/
theorem immediateTargetExactly : Obligations.ImmediateTargetExactly := by
  intro w k
  have hrow := exists_target_row_iff (w % 100) k
  rw [decodeHead_eq_immediateWriteTarget_iff, modesValid_iff, modeDigit_eq]
  simp only [opcodeOf_eq_code_iff]
  constructor
  · rintro ⟨hv, op, ⟨_, hop⟩, hk, h1⟩
    refine ⟨hundred_le_of_digit_eq_one h1, hv, ?_⟩
    rcases hrow.mp ⟨op, hop, hk⟩ with ⟨rfl, hc⟩ | ⟨rfl, hc⟩
    · exact .inl ⟨rfl, hc, h1⟩
    · exact .inr ⟨rfl, hc, h1⟩
  · rintro ⟨hw, hv, ⟨rfl, hc, h1⟩ | ⟨rfl, hc, h1⟩⟩
    · obtain ⟨op, hop, hk⟩ := hrow.mpr (.inl ⟨rfl, hc⟩)
      exact ⟨hv, op, ⟨by omega, hop⟩, hk, h1⟩
    · obtain ⟨op, hop, hk⟩ := hrow.mpr (.inr ⟨rfl, hc⟩)
      exact ⟨hv, op, ⟨by omega, hop⟩, hk, h1⟩

/-- Settles O16: `decodeHead_selects_iff` and `decodeHead_ok`, said in the digits of the word. -/
theorem rowSelectedExactly : Obligations.RowSelectedExactly := by
  refine ⟨fun w op => ?rows, fun w h k hd hk => ?modes⟩
  case rows =>
    rw [decodeHead_selects_iff, modesValid_iff, opcodeOf_eq_code_iff]
    simp only [modeDigit_eq]
    tauto
  case modes =>
    rw [← modeDigit_eq]
    obtain ⟨_, _, _, hmodes⟩ := decodeHead_ok hd
    exact hmodes k hk

/-- Settles O18: the words and the parameter cells are fixed, so the decoder computes each instruction. -/
theorem listedWordsDecode : Obligations.ListedWordsDecode := by
  refine ⟨?_, ?_, ?_, ?_, ?_, ?_, ?_, ?_, ?_, ?_⟩ <;> decide

/-! ### The decoder undoes the encoder -/

/-- Settles O10: the encoder's word is the one with no digit above the last parameter's, and the cells after it hold the
parameters whatever follows them. -/
theorem decodeOfEncode : Obligations.DecodeOfEncode := by
  intro i rest hwf
  have hparam : ∀ k ≥ 1, ∀ o, i.operands[k - 1]? = some o → (encode i ++ rest).getD k 0 = o.param := by
    intro k hk o ho
    obtain ⟨j, rfl⟩ := Nat.exists_eq_add_of_le' hk
    obtain ⟨hj, _⟩ := List.getElem?_eq_some_iff.mp ho
    rw [List.getD_append _ _ _ _ (by simpa [encode] using hj)]
    exact encode_getD hk ho
  have hcells : decodeCells (encode i ++ rest) = decode (encodeWord i) (fun k => (encode i ++ rest).getD k 0) := rfl
  rw [hcells]
  simpa using decode_encodeWord_add_surplus (e := 0) hwf (by simp) hparam

/-! ### The encoder undoes the decoder, but for surplus digits -/

/-- Operands whose mode digits are the low digits of `q` have the mode number that these digits write (R54). -/
theorem modeNumber_eq_mod {os : List Operand} {q : Nat}
    (h : ∀ k ≥ 1, ∀ o, os[k - 1]? = some o → o.mode.digit = digit q k) : modeNumber os = q % 10 ^ os.length := by
  induction os generalizing q with
  | nil => simp [modeNumber, Nat.mod_one]
  | cons o os ih =>
    have hhead : o.mode.digit = q % 10 := by simpa [digit] using h 1 le_rfl o rfl
    have htail : modeNumber os = q / 10 % 10 ^ os.length := by
      refine ih fun k hk p hp => ?_
      obtain ⟨j, rfl⟩ := Nat.exists_eq_add_of_le' hk
      simpa [digit, Nat.pow_succ', Nat.div_div_eq_div_mul] using h (j + 2) (by omega) p hp
    rw [modeNumber, hhead, htail, List.length_cons, Nat.pow_succ', Nat.mod_mul]

/-- A word that decodes is its instruction's word with its surplus digits above. -/
theorem encodeWord_of_decode {w : Int} {param : Nat → Int} {i : Instr} (hd : decode w param = .ok i) :
    (encodeWord i : Int) = w % 10 ^ (2 + i.opcode.arity) := by
  obtain ⟨h0, hcode⟩ := opcodeOf_eq_code_iff.mp (opcodeOf_of_decode hd)
  have hmodes : modeNumber i.operands = w.toNat / 100 % 10 ^ i.opcode.arity := by
    rw [← operands_length]
    refine modeNumber_eq_mod fun k hk o ho => ?_
    obtain ⟨h, hh, rfl⟩ := decode_ok hd
    obtain ⟨_, _, _, hdigit⟩ := decodeHead_ok hh
    rw [mode_of_instr_operand hk ho, hdigit k hk, modeDigit_eq]
  have hword : encodeWord i = w.toNat % 10 ^ (2 + i.opcode.arity) := by
    rw [Nat.pow_add, Nat.mod_mul, ← hmodes, encodeWord]
    omega
  rw [hword]
  push_cast
  rw [Int.toNat_of_nonneg h0]

/-- Settles O11: the decoder refuses an immediate write target (`wellFormed_of_decode`), reads the modes from the digits
that the encoder writes, and takes the parameters from the first `arity` cells. -/
theorem encodeOfDecode : Obligations.EncodeOfDecode := by
  intro w param i hd
  refine ⟨wellFormed_of_decode hd, ?_⟩
  rw [encode, encodeWord_of_decode hd]
  obtain ⟨h, _, rfl⟩ := decode_ok hd
  rw [instr_opcode, instr_operands, List.map_map]
  rfl

end Sys2Proof
end

section
/-! PROOFS. The statements of 60_exceptions.md and 10_state.md about every step: a record has the fields of its cause and
speaks of the faulting instruction (R152), only HLT terminates a core (R16), and the invariant `State.Inv` is kept. -/

namespace Sys2Proof.Machine

variable {s t : State} {i : Instr} {r : FaultRecord}

/-! ### What was fetched -/

theorem ip_nonneg_of_fetchInstr (h : fetchInstr s = .ok i) : 0 ≤ s.ip := by
  rcases fetchInstr_cases s with ⟨_, h'⟩ | ⟨_, _, _, h'⟩ | ⟨hip, _, _, _⟩
  · simp [h'] at h
  · simp [h'] at h
  · exact hip

theorem decode_of_fetchInstr (h : fetchInstr s = .ok i) : decode (s.mem.read s.ip.toNat) s.param = .ok i := by
  rcases fetchInstr_cases s with ⟨_, h'⟩ | ⟨_, _, _, h'⟩ | ⟨_, j, hd, h'⟩
  · simp [h'] at h
  · simp [h'] at h
  · obtain rfl : j = i := by simpa [h'] using h
    exact hd

/-! ### The fields of each record (R152) -/

theorem wellShaped_fetchError (hip : s.ip < 0) : s.fetchError.wellShaped :=
  ⟨wordAt_of_negative hip, rfl, hip, rfl⟩

theorem isSome_wordAt (hip : 0 ≤ s.ip) : s.wordAt.isSome := by
  simp [wordAt_of_nonneg hip]

theorem wellShaped_decodeError (hip : 0 ≤ s.ip) (e : DecodeFault) : (s.decodeError e).wellShaped := by
  have hword := isSome_wordAt hip
  cases e with
  | invalidMode => exact ⟨hword, rfl, rfl⟩
  | unknownOpcode => exact ⟨hword, rfl, rfl⟩
  | immediateWriteTarget k => exact ⟨hword, rfl, rfl⟩

theorem wellShaped_inputError (hip : 0 ≤ s.ip) : s.inputError.wellShaped :=
  ⟨isSome_wordAt hip, rfl, rfl⟩

theorem Raises.wellShaped (h : Raises i s r) (hip : 0 ≤ s.ip) : r.wellShaped := by
  have hword := isSome_wordAt hip
  cases h with
  | target => exact ⟨hword, rfl, rfl⟩
  | write _ _ he => exact ⟨hword, ⟨_, he.2, rfl⟩, rfl⟩
  | read _ _ _ he => exact ⟨hword, ⟨_, he.2, rfl⟩, rfl⟩

theorem wellShaped_of_fetchInstr_error (h : fetchInstr s = .error r) : r.wellShaped := by
  rcases fetchInstr_cases s with ⟨hip, h'⟩ | ⟨hip, e, _, h'⟩ | ⟨_, _, _, h'⟩
  · obtain rfl : s.fetchError = r := by simpa [h'] using h
    exact wellShaped_fetchError hip
  · obtain rfl : s.decodeError e = r := by simpa [h'] using h
    exact wellShaped_decodeError hip e
  · simp [h'] at h

/-! ### The records a step raises -/

/-- A step that leaves a record in an empty latch is one of a running core that raised it, and it changed nothing else
(R160). -/
theorem step_latched (hf : s.fault = none) (hs : step s = .next t) (hr : t.fault = some r) :
    s.terminated = false ∧ r.cause.isLatched = true ∧ r.wellShaped ∧ r.speaksOf s ∧ t = s.latch r := by
  rcases step_cases s with ⟨q, hq, _⟩ | ⟨_, _, hs'⟩ | ⟨_, ht, ⟨q, hfetch, hl, hsp, hs'⟩ | ⟨i, hi, hs'⟩⟩
  · simp [hf] at hq
  · obtain rfl : s = t := by simpa [hs'] using hs
    simp [hf] at hr
  · obtain rfl : s.latch q = t := by simpa [hs'] using hs
    obtain rfl : q = r := by simpa using hr
    exact ⟨ht, hl, wellShaped_of_fetchInstr_error hfetch, hsp, rfl⟩
  · rcases exec_next (hs'.symm.trans hs) with he | ⟨q, hq, rfl⟩
    · simp [he.fault, hf] at hr
    · obtain rfl : q = r := by simpa using hr
      exact ⟨ht, hq.isLatched, hq.wellShaped (ip_nonneg_of_fetchInstr hi), hq.speaksOf, rfl⟩

theorem step_missingInput_record (h : step s = .fault (.missingInput r)) : r = s.inputError ∧ 0 ≤ s.ip := by
  obtain ⟨hrest, _, d, _, hi, _⟩ := step_missingInput h
  refine ⟨?_, ip_nonneg_of_fetchInstr hi⟩
  rcases step_running hrest with ⟨q, _, _, hs⟩ | ⟨_, _, _, _, _, _, hs⟩ | ⟨_, _, _, _, hs⟩
  · simp [hs] at h
  · simpa [hs, eq_comm] using h
  · simp [hs] at h

/-- Settles O32: a latched record is that of a fetch, a decoding or an operand (`step_latched`), any other is
MissingInputError, and each is built from the state it is raised in. -/
theorem recordsHaveTheirFields : Obligations.RecordsHaveTheirFields := by
  refine ⟨fun s t r hf hs hr => ?latched, fun s r h => ?missing⟩
  case latched =>
    obtain ⟨_, _, hshape, hspeaks, _⟩ := step_latched hf hs hr
    exact ⟨hshape, hspeaks⟩
  case missing =>
    obtain ⟨rfl, hip⟩ := step_missingInput_record h
    exact ⟨wellShaped_inputError hip, rfl, rfl⟩

/-! ### The terminated flag -/

/-- A word that decodes to HLT has opcode 99, whatever mode digits stand above (R57). -/
theorem wordAt_of_fetchInstr_hlt (h : fetchInstr s = .ok .hlt) : ∃ w, s.wordAt = some w ∧ 99 ≤ w ∧ w % 100 = 99 := by
  have hop : opcodeOf (s.mem.read s.ip.toNat) = Opcode.hlt.code := opcodeOf_of_decode (decode_of_fetchInstr h)
  obtain ⟨h0, h99⟩ := opcodeOf_eq_code_iff.mp hop
  simp only [Opcode.code] at h99
  exact ⟨_, wordAt_of_nonneg (ip_nonneg_of_fetchInstr h), by omega, by omega⟩

/-- Settles O35: of the three kinds of next state, only an instruction's effect writes the flag, and of the effects only
HLT's; a terminated core steps to itself. -/
theorem onlyHltTerminates : Obligations.OnlyHltTerminates := by
  intro s t hs
  obtain ⟨hf, ⟨ht, rfl⟩ | ⟨ht, r, _, _, rfl⟩ | ⟨ht, i, hi, he⟩⟩ := step_next hs
  · simp [ht]
  · simp [ht]
  · refine ⟨fun _ ht' => ?_, fun h => by simp [ht] at h⟩
    have hhlt : i = .hlt := by
      by_contra hne
      simp [he.terminated hne, ht] at ht'
    subst hhlt
    obtain ⟨w, hw, h99, hmod⟩ := wordAt_of_fetchInstr_hlt hi
    cases he
    exact ⟨w, hw, h99, hmod, rfl⟩

/-! ### The invariant -/

/-- With an empty latch the invariant asks only for canonical memory. -/
theorem State.Inv.of_fault_eq_none (hm : s.mem.wf) (hf : s.fault = none) : s.Inv where
  memory := hm
  exclusive h := absurd hf h
  latched r h := by simp [hf] at h

/-- A running core that latches a record of the instruction at `ip` meets the invariant: `ip` and the word stay (R160). -/
theorem State.Inv.latch (h : s.Inv) (ht : s.terminated = false) (hl : r.cause.isLatched = true) (hw : r.wellShaped)
    (hsp : r.speaksOf s) : (s.latch r).Inv where
  memory := h.memory
  exclusive _ := ht
  latched q hq := by
    obtain rfl : r = q := by simpa using hq
    exact ⟨hl, hw, hsp⟩

theorem step_keeps_wf (hm : s.mem.wf) (hs : step s = .next t) : t.mem.wf := by
  obtain ⟨_, ⟨_, rfl⟩ | ⟨_, r, _, _, rfl⟩ | ⟨_, i, _, he⟩⟩ := step_next hs
  · exact hm
  · exact hm
  · exact he.wf hm

theorem State.Inv.step (h : s.Inv) (hs : step s = .next t) : t.Inv := by
  cases hr : t.fault with
  | none => exact .of_fault_eq_none (step_keeps_wf h.memory hs) hr
  | some r =>
    obtain ⟨hf, _⟩ := step_next hs
    obtain ⟨ht, hl, hw, hsp, rfl⟩ := step_latched hf hs hr
    exact h.latch ht hl hw hsp

/-- Settles O2: memory after reset is the empty list, and the latch is empty. -/
theorem resetMeetsInvariant : Obligations.ResetMeetsInvariant :=
  .of_fault_eq_none Memory.wf_nil reset_fault

/-- Settles O54: where the step latches a record, `step_latched` says all that the invariant asks of it; else the latch
is empty, and every write keeps memory canonical. -/
theorem stepKeepsInvariant : Obligations.StepKeepsInvariant := fun _ _ h hs => h.step hs

end Sys2Proof.Machine
end

section
/-! PROOFS. The statements of 47_host_commands.md about every command: which may write the default input (R134, R135),
which may leave a terminal status (R121), and that each keeps the invariant `State.Inv`. -/

namespace Sys2Proof.Machine

variable {s t : State} {a : HostAction} {b : Bool} {r : Result} {q : HostResult} {fuel : Nat}

/-! ### What a command can do -/

/-- The state with the three elements that commands other than LOAD, power-on, RUN and STEP may write. -/
def State.withQueues (s : State) (inq outq : List Int) (defaultInput : Option Int) : State :=
  { s with inq := inq, outq := outq, defaultInput := defaultInput }

/-- Everything a command can do: LOAD, power-on reset, a call, or a change of the queues and the default. -/
theorem perform_done (h : perform fuel a s = .done q t) :
    (∃ p i, a = .load p i ∧ t = s.load p i) ∨ (a = .powerOn ∧ t = State.reset) ∨
    (∃ b r, drive b fuel s = .returned r t) ∨
    ∃ i o d, t = s.withQueues i o d ∧
      (d = s.defaultInput ∨ (∃ v, a = .setDefault v ∧ d = some v) ∨ (a = .clearDefault ∧ d = none)) := by
  have call {b : Bool} (h : (drive b fuel s).performed = .done q t) : ∃ b r, drive b fuel s = .returned r t := by
    obtain ⟨r, _, hd⟩ := performed_eq_done h
    exact ⟨b, r, hd⟩
  cases a with
  | load p i => cases h; exact .inl ⟨p, i, rfl, rfl⟩
  | powerOn => cases h; exact .inr (.inl ⟨rfl, rfl⟩)
  | run => exact .inr (.inr (.inl (call (b := false) h)))
  | step => exact .inr (.inr (.inl (call (b := true) h)))
  | setDefault v => cases h; exact .inr (.inr (.inr ⟨_, _, _, rfl, .inr (.inl ⟨v, rfl, rfl⟩)⟩))
  | clearDefault => cases h; exact .inr (.inr (.inr ⟨_, _, _, rfl, .inr (.inr ⟨rfl, rfl⟩)⟩))
  | addInput v => cases h; exact .inr (.inr (.inr ⟨_, _, _, rfl, .inl rfl⟩))
  | peekOutputs => cases h; exact .inr (.inr (.inr ⟨_, _, _, rfl, .inl rfl⟩))
  | takeOutputs => cases h; exact .inr (.inr (.inr ⟨_, _, _, rfl, .inl rfl⟩))
  | memPeek n => cases h; exact .inr (.inr (.inr ⟨_, _, _, rfl, .inl rfl⟩))
  | status => cases h; exact .inr (.inr (.inr ⟨_, _, _, rfl, .inl rfl⟩))

/-- Settles O4: each equation is that command's own arm of `perform`. -/
theorem inputCommandsWriteOneElement : Obligations.InputCommandsWriteOneElement := fun _ _ _ => ⟨rfl, rfl, rfl⟩

/-! ### The default input -/

theorem step_defaultInput (hs : step s = .next t) : t.defaultInput = s.defaultInput := by
  obtain ⟨_, ⟨_, rfl⟩ | ⟨_, r, _, _, rfl⟩ | ⟨_, i, _, he⟩⟩ := step_next hs
  · rfl
  · rfl
  · exact he.defaultInput

theorem drive_defaultInput (h : drive b fuel s = .returned r t) : t.defaultInput = s.defaultInput :=
  drive_keeps (P := fun u => u.defaultInput = s.defaultInput) (fun _ _ hu hs => (step_defaultInput hs).trans hu)
    (fun _ hu => hu) rfl h

/-- Settles O6: no step writes the default, so no call does; LOAD keeps it. -/
theorem defaultInputWritersAreThree : Obligations.DefaultInputWritersAreThree := by
  intro fuel a s r t h
  obtain ⟨p, i, _, rfl⟩ | ⟨rfl, rfl⟩ | ⟨b, r, hd⟩ | ⟨i, o, d, rfl, hd | ⟨v, rfl, hd⟩ | ⟨rfl, hd⟩⟩ := perform_done h
  · exact .inl (load_defaultInput ..)
  · exact .inr (.inr (.inr ⟨rfl, reset_defaultInput⟩))
  · exact .inl (drive_defaultInput hd)
  · exact .inl hd
  · exact .inr (.inl ⟨v, rfl, hd⟩)
  · exact .inr (.inr (.inl ⟨rfl, hd⟩))

/-! ### A terminal status -/

theorem atRest_of_status_ne_running (h : s.status ≠ .running) : ∃ r, atRest s = some r := by
  rcases status_cases s with ⟨hrun, _⟩ | ⟨_, hrest⟩ | ⟨_, _, hrest⟩
  · exact absurd hrun h
  · exact ⟨_, hrest⟩
  · exact ⟨_, hrest⟩

/-- Settles O7: a call returns at once and leaves the state as it was, and the other commands write only the queues and
the default. -/
theorem onlyResetLeavesTerminalStatus : Obligations.OnlyResetLeavesTerminalStatus := by
  intro fuel a s r t hst h
  obtain ⟨p, i, ha, _⟩ | ⟨ha, _⟩ | ⟨b, r, hd⟩ | ⟨i, o, d, rfl, _⟩ := perform_done h
  · exact .inl ⟨p, i, ha⟩
  · exact .inr (.inl ha)
  · obtain ⟨r', hrest⟩ := atRest_of_status_ne_running hst
    obtain ⟨_, rfl⟩ : r' = r ∧ s = t := by simpa [drive_of_atRest b fuel hrest] using hd
    exact .inr (.inr ⟨rfl, rfl, rfl, rfl, rfl, rfl⟩)
  · exact .inr (.inr ⟨rfl, rfl, rfl, rfl, rfl, rfl⟩)

/-! ### The invariant -/

/-- The invariant speaks of neither queue and not of the default. -/
theorem State.Inv.withQueues (h : s.Inv) (i o : List Int) (d : Option Int) : (s.withQueues i o d).Inv :=
  ⟨h.memory, h.exclusive, h.latched⟩

theorem drive_keeps_inv (h : s.Inv) (hd : drive b fuel s = .returned r t) : t.Inv :=
  drive_keeps (fun _ _ hu hs => hu.step hs) (fun u hu => hu.withQueues u.inq u.outq.dropLast u.defaultInput) h hd

/-- Settles O55: a call keeps what every step keeps (`drive_keeps`); LOAD and power-on reset empty the latch and leave
canonical memory. -/
theorem commandsKeepInvariant : Obligations.CommandsKeepInvariant := by
  intro fuel a s r t hs h
  obtain ⟨p, i, _, rfl⟩ | ⟨_, rfl⟩ | ⟨b, r, hd⟩ | ⟨i, o, d, rfl, _⟩ := perform_done h
  · exact .of_fault_eq_none (load_wf s p i) (load_fault ..)
  · exact resetMeetsInvariant
  · exact drive_keeps_inv hs hd
  · exact hs.withQueues i o d

end Sys2Proof.Machine
end

section
/-! PROOFS. The statements of 46_execution_driver.md about a whole call: what its result says of the state it leaves, that
it has one result (R122), that it keeps the output queue's order (R118), that nothing is refused, and that the
idle/executing machine returns the same (R121). -/

namespace Sys2Proof.Machine

variable {s t u : State} {b : Bool} {r : Result}

/-! ### Nothing is refused -/

theorem exec_ne_refused (i : Instr) (s : State) (q : Refusal) : exec i s ≠ .refused q := by
  rcases exec_cases i s with ⟨t, _, h⟩ | ⟨r, _, h⟩ | ⟨d, _, _, _, _, h⟩ <;> simp [h]

theorem step_ne_refused (s : State) (q : Refusal) : step s ≠ .refused q := by
  rcases step_cases s with ⟨r, _, h⟩ | ⟨_, _, h⟩ | ⟨_, _, ⟨r, _, _, _, h⟩ | ⟨i, _, h⟩⟩
  · simp [h]
  · simp [h]
  · simp [h]
  · rw [h]
    exact exec_ne_refused i s q

theorem driveOnce_ne_refused (b : Bool) (s : State) (q : Refusal) : driveOnce b s ≠ .refused q := by
  rcases driveOnce_cases b s with ⟨r, _, h⟩ | ⟨_, q, _, _, _, h⟩ | ⟨_, _, _, _, h⟩ |
      ⟨_, i, t, _, _, _, ⟨a, x, _, _, h⟩ | ⟨_, _, h⟩⟩
  · simp [h]
  · simp [h]
  · simp [h]
  · cases b <;> simp [h]
  · simp [h]

theorem drive_ne_refused (b : Bool) (fuel : Nat) (s : State) (q : Refusal) : drive b fuel s ≠ .refused q := by
  induction fuel generalizing s with
  | zero => cases h : atRest s <;> simp [drive, h]
  | succ fuel ih =>
    cases h : driveOnce b s with
    | returned r t => simp [drive, h]
    | continues t => simpa [drive, h] using ih t
    | refused q' => exact absurd h (driveOnce_ne_refused b s q')

/-- Settles O36: neither the ten effects, the raising of a fault nor a missing input is a refusal. -/
theorem nothingIsRefused : Obligations.NothingIsRefused := ⟨step_ne_refused, exec_ne_refused, drive_ne_refused⟩

/-! ### The last pass decides the result -/

theorem drive_last_pass {fuel : Nat} (h : drive b fuel s = .returned r t) : ∃ u, driveOnce b u = .returned r t :=
  drive_returned_induction (P := fun _ r t => ∃ u, driveOnce b u = .returned r t) (fun s _ _ hd => ⟨s, hd⟩)
    (fun _ _ _ _ _ ih => ih) h

/-- Settles O50: the last pass returns what the core at rest answers, the record its step latches, a missing input's
record, or an OUT's value. -/
theorem resultMatchesFinalState : Obligations.ResultMatchesFinalState := by
  rintro b s t r ⟨fuel, h⟩
  obtain ⟨u, hu⟩ := drive_last_pass h
  rcases driveOnce_returned hu with ⟨hrest, rfl⟩ | ⟨_, q, _, _, _, rfl, rfl⟩ | ⟨hrest, hq, hdef, rfl, rfl⟩ |
      ⟨hrest, hb, a, x, w, _, he, _, _, rfl, rfl⟩
  · rcases atRest_cases hrest with ⟨q, hf, rfl⟩ | ⟨hf, ht, rfl⟩
    · simp [hf]
    · simp [hf, ht]
  · simp
  · obtain ⟨hf, ht⟩ := atRest_eq_none.mp hrest
    have hcause : t.inputError.cause = .missingInputError := rfl
    simp [hf, ht, hq, hdef, hcause]
  · obtain ⟨hf, ht⟩ := atRest_eq_none.mp (he.keeps_running (by simp) hrest)
    simp [hb, hf, ht]

/-! ### Fuel -/

/-- More fuel changes nothing of a call that has returned. -/
theorem drive_add_fuel {fuel : Nat} (h : drive b fuel s = .returned r t) (more : Nat) :
    drive b (fuel + more) s = .returned r t := by
  induction fuel generalizing s with
  | zero =>
    cases hrest : atRest s with
    | none => simp [drive, hrest] at h
    | some r' =>
      rw [drive_of_atRest b 0 hrest] at h
      rw [drive_of_atRest b _ hrest, h]
  | succ fuel ih =>
    rw [Nat.succ_add]
    cases hd : driveOnce b s with
    | returned r' t' => simpa [drive, hd] using h
    | continues w => simpa [drive, hd] using ih (by simpa [drive, hd] using h)
    | refused q => simp [drive, hd] at h

/-- Settles O51: both calls return at the sum of their fuels. -/
theorem callResultIsUnique : Obligations.CallResultIsUnique := by
  refine ⟨?unique, fun b s r t fuel more h => drive_add_fuel h more⟩
  rintro b s r r' t t' ⟨n, h⟩ ⟨n', h'⟩
  have hsum := drive_add_fuel h n'
  rw [Nat.add_comm, drive_add_fuel h' n] at hsum
  cases hsum
  exact ⟨rfl, rfl⟩

/-! ### The output queue -/

/-- The pass in which a call returns leaves the queue as it was: STEP removes the value it delivers (R118). -/
theorem driveOnce_returned_outq (h : driveOnce b s = .returned r t) : t.outq = s.outq := by
  rcases driveOnce_returned h with ⟨_, rfl⟩ | ⟨_, q, _, _, _, rfl, _⟩ | ⟨_, _, _, rfl, _⟩ |
      ⟨_, _, a, x, w, _, _, _, hq, rfl, _⟩
  · rfl
  · rfl
  · rfl
  · simp [hq]

/-- A pass that goes on appends at most one value. -/
theorem driveOnce_continues_outq (h : driveOnce b s = .continues t) : ∃ vs, t.outq = s.outq ++ vs := by
  obtain ⟨_, i, _, _, _, ⟨_, a, x, _, hq⟩ | ⟨_, hq⟩⟩ := driveOnce_continues h
  · exact ⟨[x], hq⟩
  · exact ⟨[], by simp [hq]⟩

theorem drive_outq {fuel : Nat} (h : drive b fuel s = .returned r t) : ∃ vs, t.outq = s.outq ++ vs := by
  refine drive_returned_induction (P := fun s _ t => ∃ vs, t.outq = s.outq ++ vs)
    (fun s r t hd => ⟨[], by simp [driveOnce_returned_outq hd]⟩) (fun s u r t hd ih => ?_) h
  obtain ⟨vs, hvs⟩ := driveOnce_continues_outq hd
  obtain ⟨ws, hws⟩ := ih
  exact ⟨vs ++ ws, by simp [hws, hvs]⟩

/-- Settles O52: RUN's passes append (`drive_outq`); STEP's last pass starts from the queue the call started from and
leaves it so. -/
theorem outputQueueKeepsItsOrder : Obligations.OutputQueueKeepsItsOrder := by
  refine ⟨fun s r t ⟨_, h⟩ => drive_outq h, fun s r t ⟨_, h⟩ => ?_⟩
  obtain ⟨u, hu, hlast⟩ := drive_step_last_pass h
  exact (driveOnce_returned_outq hlast).trans hu

/-! ### The idle/executing machine -/

theorem ticks_of_tick_result {n : Nat} {x y : Session} (h : x.tick = some (y, some r)) :
    Session.ticks (n + 1) x = some (y, some r) := by
  simp [Session.ticks, h]

theorem ticks_of_tick_none {n : Nat} {x y : Session} (h : x.tick = some (y, none)) :
    Session.ticks (n + 1) x = Session.ticks n y := by
  simp [Session.ticks, h]

/-- Ticking the call returns `r` and leaves the core idle in `t`; and where the core is at rest, that is its answer at
once. -/
def TicksReturn (b : Bool) (s : State) (r : Result) (t : State) : Prop :=
  (∀ q, atRest s = some q → q = r ∧ s = t) ∧ ∃ n, Session.ticks n ⟨s, .executing b⟩ = some (⟨t, .idle⟩, some r)

theorem TicksReturn.of_returned (h : driveOnce b s = .returned r t) : TicksReturn b s r t := by
  refine ⟨fun q hq => ?_, 1, ticks_of_tick_result (tick_of_returned h)⟩
  simpa [driveOnce_of_atRest b hq] using h

/-- Where the pass has come to rest, its tick already returns what the loop's next pass would (R121, the HLT row). -/
theorem TicksReturn.of_continues (h : driveOnce b s = .continues u) (hu : TicksReturn b u r t) :
    TicksReturn b s r t := by
  obtain ⟨hrest, _⟩ := driveOnce_continues h
  obtain ⟨hend, n, hn⟩ := hu
  refine ⟨fun q hq => by simp [hrest] at hq, ?_⟩
  cases hur : atRest u with
  | none => exact ⟨n + 1, (ticks_of_tick_none (tick_of_continues h hur)).trans hn⟩
  | some q =>
    obtain ⟨rfl, rfl⟩ := hend q hur
    exact ⟨1, ticks_of_tick_result (tick_of_continues_at_rest h hur)⟩

theorem ticksReturn_of_returns (h : Returns b s r t) : TicksReturn b s r t := by
  obtain ⟨fuel, h⟩ := h
  exact drive_returned_induction (fun _ _ _ => .of_returned) (fun _ _ _ _ => .of_continues) h

theorem returns_of_ticks {n : Nat} (h : Session.ticks n ⟨s, .executing b⟩ = some (⟨t, .idle⟩, some r)) :
    Returns b s r t := by
  induction n generalizing s with
  | zero => simp [Session.ticks] at h
  | succ n ih =>
    cases hd : driveOnce b s with
    | returned q w =>
      rw [ticks_of_tick_result (tick_of_returned hd)] at h
      cases h
      exact .of_returned hd
    | continues w =>
      cases hw : atRest w with
      | none => exact .of_continues hd (ih ((ticks_of_tick_none (tick_of_continues hd hw)).symm.trans h))
      | some q =>
        rw [ticks_of_tick_result (tick_of_continues_at_rest hd hw)] at h
        cases h
        exact .of_continues hd (.of_returned (driveOnce_of_atRest b hw))
    | refused q => exact absurd hd (driveOnce_ne_refused b s q)

theorem issue_call (b : Bool) (s : State) :
    Session.issue (if b then .step else .run) ⟨s, .idle⟩ = some (Session.begin b s) := by
  cases b <;> rfl

/-- Settles O9: a core at rest answers at once under both views; else the call begins, and its ticks return what the
passes of the loop do (`ticksReturn_of_returns`, `returns_of_ticks`). -/
theorem sessionRefinesDrive : Obligations.SessionRefinesDrive := by
  intro b s t r
  rw [issue_call]
  constructor
  · intro h
    obtain ⟨hend, hticks⟩ := ticksReturn_of_returns h
    cases hrest : atRest s with
    | none => exact ⟨_, .inr ⟨by simp [Session.begin, hrest], hticks⟩⟩
    | some q =>
      obtain ⟨rfl, rfl⟩ := hend q hrest
      exact ⟨_, .inl ⟨congrArg some (begin_of_atRest b hrest), rfl⟩⟩
  · rintro ⟨v, ⟨hbegin, rfl⟩ | ⟨hbegin, n, hn⟩⟩
    · cases hrest : atRest s with
      | none => simp [Session.begin, hrest] at hbegin
      | some q =>
        obtain ⟨rfl, rfl⟩ : s = t ∧ q = r := by simpa [begin_of_atRest b hrest] using hbegin
        exact .of_returned (driveOnce_of_atRest b hrest)
    · cases hrest : atRest s with
      | none =>
        obtain rfl : ⟨s, .executing b⟩ = v := by simpa [Session.begin, hrest] using hbegin
        exact returns_of_ticks hn
      | some q => simp [begin_of_atRest b hrest] at hbegin

end Sys2Proof.Machine
end

section
/-! PROOFS. The statements of 40_arithmetic.md to 45_halt.md: what each instruction does wherever its operands are
accessible, that an immediate write target raises (30_encoding.md R62), what each leaves unchanged, and where `ip` goes
next (R50, R93). -/

namespace Sys2Proof.Machine

variable {s t : State} {i : Instr} {a b c d g : Operand} {x y : Int} {n k : Nat}

/-! ### What each instruction does -/

/-- A storing instruction writes one cell and goes on to the next instruction (R33, R50). -/
theorem storeResult_sets_cell (f : Int → Int → Int) (ha : Reads s a x) (hb : Reads s b y) (hd : Targets s d n) :
    ∃ m, storeResult f a b d s = .next { s with mem := m, ip := s.ip + 4 } ∧
      ∀ c, m.read c = if c = n then f x y else s.mem.read c :=
  ⟨s.mem.write n (f x y), storeResult_of_reads ha hb hd, fun c => s.mem.read_write n c (f x y)⟩

/-- Settles O19: ADD stores the sum by `storeResult`. -/
theorem addStoresSum : Obligations.AddStoresSum := fun _ _ _ _ _ _ _ ha hb hd =>
  storeResult_sets_cell (fun x y => x + y) ha hb hd

/-- Settles O20: MUL stores the product by `storeResult`. -/
theorem mulStoresProduct : Obligations.MulStoresProduct := fun _ _ _ _ _ _ _ ha hb hd =>
  storeResult_sets_cell (fun x y => x * y) ha hb hd

/-- Settles O25: `truth` writes 1 or 0 for the order of the two values. -/
theorem ltStoresOrder : Obligations.LtStoresOrder := by
  intro s a b d x y n ha hb hd
  obtain ⟨m, hs, hm⟩ := storeResult_sets_cell (fun x y => truth (decide (x < y))) ha hb hd
  exact ⟨m, hs, by simpa [truth] using hm⟩

/-- Settles O26: `truth` writes 1 or 0 for the equality of the two values. -/
theorem eqStoresEquality : Obligations.EqStoresEquality := by
  intro s a b d x y n ha hb hd
  obtain ⟨m, hs, hm⟩ := storeResult_sets_cell (fun x y => truth (decide (x = y))) ha hb hd
  exact ⟨m, hs, by simpa [truth] using hm⟩

/-- Settles O22: OUT's effect is the value appended and `ip` moved. -/
theorem outAppendsValue : Obligations.OutAppendsValue := fun _ _ _ ha => (Effect.out ha).exec_eq

/-- Settles O27: ARB's effect is the value added to `rb` and `ip` moved. -/
theorem arbAddsToBase : Obligations.ArbAddsToBase := fun _ _ _ ha => exec_arb_of_reads ha

/-- Settles O28: HLT has no operand, so it has its effect in every state. -/
theorem hltTerminates : Obligations.HltTerminates := fun _ => Effect.hlt.exec_eq

/-- Settles O23: the condition 0 is the one case in which JNZ does not jump. -/
theorem jnzJumpsUnlessZero : Obligations.JnzJumpsUnlessZero := by
  intro s c g x y hc hg
  by_cases hx : x = 0
  · subst hx
    exact (Effect.jnzNotTaken hc hg).exec_eq
  · rw [if_neg hx]
    exact exec_jnz_of_taken hc hg hx

/-- Settles O24: the condition 0 is the one case in which JZ jumps. -/
theorem jzJumpsIfZero : Obligations.JzJumpsIfZero := by
  intro s c g x y hc hg
  by_cases hx : x = 0
  · subst hx
    exact exec_jz_of_taken hc hg
  · rw [if_neg hx]
    exact (Effect.jzNotTaken hc hg hx).exec_eq

/-! ### An immediate write target -/

theorem storeResult_of_immediate_target (f : Int → Int → Int) (hd : d.mode = .immediate) :
    storeResult f a b d s = .next (s.latch (s.targetError 3)) := by
  simp [storeResult, resolveStore, checkTarget_of_immediate hd]

theorem execInp_of_immediate_target (hd : d.mode = .immediate) :
    execInp d s = .next (s.latch (s.targetError 1)) := by
  simp [execInp, resolveTarget, checkTarget_of_immediate hd]

/-- Settles O29: the target's mode is tested before any operand is resolved (C12). -/
theorem immediateTargetRaises : Obligations.ImmediateTargetRaises := by
  intro s i k o hk ho hm
  cases i with
  | add a b d => cases hk; cases ho; exact storeResult_of_immediate_target (fun x y => x + y) hm
  | mul a b d => cases hk; cases ho; exact storeResult_of_immediate_target (fun x y => x * y) hm
  | lt a b d => cases hk; cases ho; exact storeResult_of_immediate_target (fun x y => truth (decide (x < y))) hm
  | eq a b d => cases hk; cases ho; exact storeResult_of_immediate_target (fun x y => truth (decide (x = y))) hm
  | inp d => cases hk; cases ho; exact execInp_of_immediate_target hm
  | out a => cases hk
  | jnz c g => cases hk
  | jz c g => cases hk
  | arb a => cases hk
  | hlt => cases hk

/-! ### Frames -/

/-- A write at the cell that the target names leaves every other cell; `addr` answers nothing else. -/
theorem read_frame_of_write {v : Int} (k : Nat) (hd : Targets s d n) (hmem : t.mem = s.mem.write n v) :
    (∀ m, addr k d s = .ok m → ∀ c, c ≠ m → t.mem.read c = s.mem.read c) ∧
      ((∀ m, addr k d s ≠ .ok m) → ∀ c, t.mem.read c = s.mem.read c) := by
  have haddr : addr k d s = .ok n := addr_of_targets hd
  refine ⟨fun m hm c hc => ?_, fun hno => absurd haddr (hno n)⟩
  obtain rfl : n = m := by simpa [haddr] using hm
  rw [hmem, Memory.read_write_other _ _ hc]

/-- The effect of ADD, MUL, LT and EQ is one write and `ip` moved. -/
theorem Effect.eq_memWrite (h : Effect i s t) (hi : i = .add a b d ∨ i = .mul a b d ∨ i = .lt a b d ∨ i = .eq a b d) :
    ∃ n v, Targets s d n ∧ t = (s.memWrite n v).advance 4 := by
  rcases hi with rfl | rfl | rfl | rfl
  · cases h with | add _ _ hd => exact ⟨_, _, hd, rfl⟩
  · cases h with | mul _ _ hd => exact ⟨_, _, hd, rfl⟩
  · cases h with | lt _ _ hd => exact ⟨_, _, hd, rfl⟩
  · cases h with | eq _ _ hd => exact ⟨_, _, hd, rfl⟩

/-- The effect of IN is one write, `ip` moved, and the front of the queue taken; an empty queue is its own tail. -/
theorem Effect.inp_eq_memWrite (h : Effect (.inp d) s t) :
    ∃ n v, Targets s d n ∧ t = (State.memWrite { s with inq := s.inq.tail } n v).advance 2 := by
  cases h with
  | inpQueue hd hq => exact ⟨_, _, hd, by rw [hq]; rfl⟩
  | @inpDefault _ _ n v hd hq _ =>
    have htail : { s with inq := s.inq.tail } = s := by rw [hq, List.tail_nil, ← hq]
    exact ⟨n, v, hd, by rw [htail]⟩

/-- Settles O37: the next state has one cell written and `ip` moved, or a record latched. -/
theorem storeInstructionsFrame : Obligations.StoreInstructionsFrame := by
  intro s t i a b d hi hs
  rcases exec_next hs with he | ⟨r, _, rfl⟩
  · obtain ⟨n, v, hd, rfl⟩ := he.eq_memWrite hi
    exact ⟨rfl, rfl, rfl, rfl, rfl, .inl rfl, read_frame_of_write 3 hd rfl⟩
  · exact ⟨rfl, rfl, rfl, rfl, rfl, .inr ⟨r, rfl⟩, fun _ _ _ _ => rfl, fun _ _ => rfl⟩

/-- Settles O38: the next state has one cell written, the queue's tail and `ip` moved, or a record latched. -/
theorem inputFrame : Obligations.InputFrame := by
  intro s t d hs
  rcases exec_next hs with he | ⟨r, _, rfl⟩
  · obtain ⟨n, v, hd, rfl⟩ := he.inp_eq_memWrite
    exact ⟨rfl, .inl rfl, rfl, rfl, rfl, .inl rfl, read_frame_of_write 1 hd rfl⟩
  · exact ⟨rfl, .inr ⟨r, rfl⟩, rfl, rfl, rfl, .inr ⟨r, rfl⟩, fun _ _ _ _ => rfl, fun _ _ => rfl⟩

theorem Effect.outq (h : Effect i s t) : t.outq = s.outq ∨ ∃ a, i = .out a := by
  cases h with
  | out => exact .inr ⟨_, rfl⟩
  | _ => exact .inl rfl

theorem Effect.rb (h : Effect i s t) : t.rb = s.rb ∨ ∃ a, i = .arb a := by
  cases h with
  | arb => exact .inr ⟨_, rfl⟩
  | _ => exact .inl rfl

/-- Without a write target no cell is written and no input is taken. -/
theorem Effect.mem_inq (h : Effect i s t) (hw : i.opcode.writeParam = none) : t.mem = s.mem ∧ t.inq = s.inq := by
  cases h with
  | add => cases hw
  | mul => cases hw
  | lt => cases hw
  | eq => cases hw
  | inpQueue => cases hw
  | inpDefault => cases hw
  | _ => exact ⟨rfl, rfl⟩

/-- Settles O39: each element but its one writer's is kept by every effect, and a latched fault changes the latch only. -/
theorem nonStoringInstructionsFrame : Obligations.NonStoringInstructionsFrame := by
  intro s t i hw hs
  rcases exec_next hs with he | ⟨r, _, rfl⟩
  · obtain ⟨hmem, hinq⟩ := he.mem_inq hw
    exact ⟨fun _ => by rw [hmem], hinq, he.defaultInput, .inl he.fault, he.outq, he.rb,
      or_iff_not_imp_right.mpr he.terminated⟩
  · exact ⟨fun _ => rfl, rfl, rfl, .inr ⟨r, rfl⟩, .inl rfl, .inl rfl, .inl rfl⟩

/-! ### The next instruction -/

/-- Every effect but a taken jump's moves `ip` by the instruction's length (R50, R93). -/
theorem Effect.ip (h : Effect i s t) : t.ip = s.ip + i.opcode.length ∨
    ∃ c g y, (i = .jnz c g ∨ i = .jz c g) ∧ Reads s g y ∧ t.ip = y := by
  cases h with
  | jnzTaken _ hg _ => exact .inr ⟨_, _, _, .inl rfl, hg, rfl⟩
  | jzTaken _ hg => exact .inr ⟨_, _, _, .inr rfl, hg, rfl⟩
  | _ => exact .inl rfl

/-- Settles O43: `Effect.ip`, and a latched fault changes the latch only. -/
theorem onlyJumpsLeaveSequence : Obligations.OnlyJumpsLeaveSequence := by
  intro s t i hs
  rcases exec_next hs with he | ⟨r, _, rfl⟩
  · exact .inr he.ip
  · exact .inl rfl

/-- Settles O40: the parameter cells are those above the word at `ip` (`step_of_decode`). -/
theorem stepRunsDecodedInstruction : Obligations.StepRunsDecodedInstruction := fun _ _ hf ht hip hd =>
  step_of_decode (atRest_eq_none.mpr ⟨hf, ht⟩) hip rfl hd

end Sys2Proof.Machine
end

section
/-! PROOFS. The model's own forms: memory as canonical data (assumption log 1) and an instruction placed at `ip`
(assumption log 5). -/

namespace Sys2Proof

/-! ### The decoder reads three parameter cells at most -/

theorem arity_le_three (op : Opcode) : op.arity ≤ 3 := by cases op <;> decide

theorem instr_congr (h : Head) {p p' : Nat → Int} (hp : ∀ k, 1 ≤ k → k ≤ 3 → p k = p' k) : h.instr p = h.instr p' := by
  have harity := arity_le_three h.op
  refine instr_ext ((instr_opcode h p).trans (instr_opcode h p').symm) ?_
  rw [instr_operands, instr_operands]
  refine List.map_congr_left fun j hj => ?_
  have hj3 : j < h.op.arity := List.mem_range.mp hj
  simp only [Head.operand, hp (j + 1) (by omega) (by omega)]

theorem decode_congr (w : Int) {p p' : Nat → Int} (hp : ∀ k, 1 ≤ k → k ≤ 3 → p k = p' k) :
    decode w p = decode w p' := by
  unfold decode
  cases decodeHead w with
  | error e => rfl
  | ok h => exact congrArg Except.ok (instr_congr h hp)

theorem decodeCells_of_decodeTableWord {nbits w : Nat} {i : Instr} (h : decodeTableWord nbits w = some i) :
    decodeCells [(w : Int)] = .ok i := by
  unfold decodeTableWord at h
  cases hd : decodeCells [(w : Int)] with
  | error e => simp [hd] at h
  | ok j => simpa [hd] using h

end Sys2Proof

namespace Sys2Proof.Machine

/-! ### Canonical memory -/

theorem Memory.wf_of_cons {c : Nat × Int} {m : Memory} (h : wf (c :: m)) : wf m :=
  ⟨h.1.of_cons, fun e he => h.2 e (List.mem_cons_of_mem c he)⟩

/-- In the canonical form the entries are what is read and not 0: no entry hides another. -/
theorem Memory.mem_iff_read {m : Memory} (h : m.wf) (a : Nat) (v : Int) : (a, v) ∈ m ↔ v ≠ 0 ∧ m.read a = v := by
  induction m with
  | nil => simp [eq_comm]
  | cons c m ih =>
    obtain ⟨b, w⟩ := c
    have hw : w ≠ 0 := h.2 (b, w) (by simp)
    have hrise : ∀ e ∈ m, b < e.1 := (List.pairwise_cons.mp h.1).1
    rw [List.mem_cons, ih (wf_of_cons h)]
    by_cases hb : b = a
    · subst hb
      have habsent : ¬ (v ≠ 0 ∧ Memory.read m b = v) := fun hv =>
        lt_irrefl b (hrise (b, v) ((ih (wf_of_cons h)).mpr hv))
      simp only [habsent, or_false, read, if_true, Prod.mk.injEq, true_and]
      exact ⟨fun hv => ⟨hv ▸ hw, hv.symm⟩, fun ⟨_, hv⟩ => hv.symm⟩
    · simp [read, hb, Ne.symm hb]

/-- Settles O56: memories that read alike have the same entries (`Memory.mem_iff_read`), and a list in strict order is
determined by its entries. -/
theorem canonicalMemoryIsItsReads : Obligations.CanonicalMemoryIsItsReads := by
  intro m m' h h' hread
  have hirrefl : Std.Irrefl (fun p q : Nat × Int => p.1 < q.1) := ⟨fun p => lt_irrefl p.1⟩
  have hantisymm : Std.Antisymm (fun p q : Nat × Int => p.1 < q.1) := ⟨fun _ _ hpq hqp => absurd hpq hqp.asymm⟩
  refine h.1.eq_of_mem_iff h'.1 fun ⟨a, v⟩ => ?_
  rw [Memory.mem_iff_read h, Memory.mem_iff_read h', hread]

/-! ### Placed cells -/

theorem placeCells_eq (s : State) (a : Nat) (vs : List Int) :
    s.placeCells a vs = { s with mem := (s.placeCells a vs).mem } := by
  induction vs generalizing s a with
  | nil => rfl
  | cons v vs ih => exact ih (s.memWrite a v) (a + 1)

theorem read_placeCells_below (s : State) {a b : Nat} (vs : List Int) (h : b < a) :
    (s.placeCells a vs).mem.read b = s.mem.read b := by
  induction vs generalizing s a with
  | nil => rfl
  | cons v vs ih =>
    rw [State.placeCells, ih (s.memWrite a v) (by omega), memWrite_mem, Memory.read_write_other _ _ (by omega)]

theorem read_placeCells (s : State) {a j : Nat} {vs : List Int} {v : Int} (h : vs[j]? = some v) :
    (s.placeCells a vs).mem.read (a + j) = v := by
  induction vs generalizing s a j with
  | nil => simp at h
  | cons w vs ih =>
    cases j with
    | zero =>
      obtain rfl : w = v := by simpa using h
      rw [State.placeCells, read_placeCells_below _ _ (by omega), memWrite_mem, Nat.add_zero, Memory.read_write_same]
    | succ j =>
      have := ih (s.memWrite a w) (a := a + 1) (j := j) (by simpa using h)
      rwa [show a + (j + 1) = a + 1 + j by omega]

section
variable (s : State) (w : Int)

/-- The core is running, `ip` can be fetched from, and the four cells stand there. -/
theorem placeInstr_stands_at_ip : atRest (s.placeInstr w) = none ∧ 0 ≤ (s.placeInstr w).ip ∧
    ∀ j v, [w, 0, 0, 0][j]? = some v → (s.placeInstr w).mem.read ((s.placeInstr w).ip.toNat + j) = v := by
  have hnonneg : 0 ≤ (if s.ip < 0 then Config.entryPoint else s.ip) := by
    split
    · exact le_rfl
    · omega
  unfold State.placeInstr
  rw [placeCells_eq]
  exact ⟨atRest_eq_none.mpr ⟨rfl, rfl⟩, hnonneg, fun j v h => read_placeCells _ h⟩

theorem read_placeInstr_param {k : Nat} (h1 : 1 ≤ k) (h3 : k ≤ 3) :
    (s.placeInstr w).mem.read ((s.placeInstr w).ip.toNat + k) = 0 := by
  obtain ⟨_, _, hread⟩ := placeInstr_stands_at_ip s w
  refine hread k 0 ?_
  interval_cases k <;> rfl

end

/-- Settles O41: the placed word stands at `ip` of a running core, and the three cells after it hold the zeros with which
`decodeTableWord` reads it. -/
theorem placedWordIsRun : Obligations.PlacedWordIsRun := by
  intro s nbits w i h
  obtain ⟨hrest, hip, hread⟩ := placeInstr_stands_at_ip s w
  refine step_of_decode hrest hip (hread 0 w rfl).symm ?_
  rw [← decodeCells_of_decodeTableWord h]
  refine decode_congr w fun k h1 h3 => ?_
  rw [read_placeInstr_param s w h1 h3]
  obtain ⟨j, rfl⟩ := Nat.exists_eq_add_of_le' h1
  rfl

end Sys2Proof.Machine
end

section
/-! PROOFS. The statements about several cores: they are isolated (10_state.md R24, 60_exceptions.md R171), and a value
passes between two of them only as the host's STEP and ADD_INPUT (47_host_commands.md R143). -/

namespace Sys2Proof.Machine

variable {fuel i j k : Nat} {a : HostAction} {sys sys' : System} {r : HostResult}

/-- A command that completes on core `k` is `perform` there, and replaces that core alone. -/
theorem act_eq_some_iff : System.act fuel k a sys = some (r, sys') ↔
    ∃ s t, sys[k]? = some s ∧ perform fuel a s = .done r t ∧ sys' = sys.set k t := by
  unfold System.act
  cases hk : sys[k]? with
  | none => simp
  | some s => cases hp : perform fuel a s <;> simp [hp, eq_comm]

/-- Settles O57: `perform` sees core `k` only, and `List.set` writes core `k` only. -/
theorem coresAreIsolated : Obligations.CoresAreIsolated := by
  intro fuel k a sys sys' r h
  obtain ⟨s, t, hk, hp, rfl⟩ := act_eq_some_iff.mp h
  refine ⟨fun j hj => List.getElem?_set_ne (Ne.symm hj), fun other hother => ?_⟩
  have hk' : other[k]? = some s := hother.trans hk
  refine ⟨other.set k t, act_eq_some_iff.mpr ⟨s, t, hk', hp, rfl⟩, ?_⟩
  obtain ⟨hlt, _⟩ := List.getElem?_eq_some_iff.mp hk
  obtain ⟨hlt', _⟩ := List.getElem?_eq_some_iff.mp hk'
  rw [List.getElem?_set_self hlt, List.getElem?_set_self hlt']

/-- A relay that answers `Produced(v)` is a STEP that did, and an ADD_INPUT of `v` after it. -/
theorem relay_produced {v : Int} (h : System.relay fuel i j sys = some (.call (.produced v), sys')) :
    ∃ mid q, System.act fuel i .step sys = some (.call (.produced v), mid) ∧
      System.act fuel j (.addInput v) mid = some (q, sys') := by
  unfold System.relay at h
  split at h
  · cases h
  · next r mid hstep =>
    split at h
    · next x =>
      split at h
      · next q last hadd =>
        cases h
        exact ⟨mid, q, hstep, hadd⟩
      · cases h
    · next hother =>
      cases h
      exact absurd rfl (hother v)

/-- Settles O58: the two commands of `relay_produced`, each on its own core. -/
theorem relayMovesOneValue : Obligations.RelayMovesOneValue := by
  intro fuel i j sys sys' v h
  obtain ⟨mid, q, hstep, hadd⟩ := relay_produced h
  obtain ⟨s, t, hi, hp, rfl⟩ := act_eq_some_iff.mp hstep
  obtain ⟨u, w, hj, hp', rfl⟩ := act_eq_some_iff.mp hadd
  obtain ⟨r, hr, hd⟩ := performed_eq_done (c := drive true fuel s) hp
  cases hr
  cases hp'
  exact ⟨s, t, u, hi, ⟨fuel, hd⟩, hj, rfl⟩

end Sys2Proof.Machine
end
